-- ==== Sys2Proof/Word.lean ====
section
/-! DEFINITION. The widths of the machine (spec/00_scope.md R5, R12): words, half words, bytes, and the four-bit
register fields of an instruction (spec/30_encoding.md R91). -/

namespace Sys2Proof

/-- A 32-bit word: a general register, an address, an instruction (R5, R90). -/
abbrev Word := BitVec 32

/-- A half word, 16 bits (R5). -/
abbrev Half := BitVec 16

/-- A byte, 8 bits (R5). -/
abbrev Byte := BitVec 8

/-- A register field of an instruction: the register's number, 0 to 15 (R91). -/
abbrev Reg := BitVec 4

end Sys2Proof
end

