-- ==== Sys2Proof/Config.lean ====
section
/-! DEFINITION. What an implementation fixes and the spec leaves open: the reset values, and the free values
(spec/00_scope.md R5, spec/10_state.md R38, spec/93_implementation_defined.md U2, U3). -/

namespace Sys2Proof

/-- The `k`-th value the spec leaves open and the machine goes on with: what `LDRH` loads from an odd address (U2, C7)
and the word `STRH` leaves in memory at an odd address (U3, C9). It has no body, so that nothing can be proved of the
value; log 9. -/
opaque Config.freeWord : Nat → Word

/-- DESIGN CHOICE (unsafe, log 2): what a memory cell that nothing has written reads as. -/
def Config.unlistedByte : Byte := 0

/-- `RESET_PC` (R5, D23). PRESUMED (unsafe, log 5): the entry R38 gives from general knowledge. -/
def Config.resetPc : Word := 0x00000000#32

/-- The Control Register after reset. Bit 7 is 0 by R37; the other bits are `C1_RESET_OTHER` (R5, D11), PRESUMED
(unsafe, log 5) at the value R38 gives from general knowledge. -/
def Config.resetControl : Word := 0x00000078#32

/-- DESIGN CHOICE (unsafe, log 3): the value every general register holds after reset. -/
def Config.resetReg : Word := 0x00000000#32

/-- `B_EFFECT_DELAY` at reset: the default R5 names (log 20). -/
def Config.resetEffectDelay : Nat := 0

end Sys2Proof
end

