-- ==== Sys2Proof/Syntax.lean ====
section
/-! DEFINITION. The instructions: one constructor for each of the 27 rows of spec/opcode_table.json, and the answers a
decoder can give (spec/30_encoding.md R92, R94 to R106, R110). -/

namespace Sys2Proof

/-- The fifteen conditions of R92; 0b1111 is not a condition (R114). -/
inductive Cond where
  | eq | ne | cs | cc | mi | pl | vs | vc | hi | ls | ge | lt | gt | le | al
  deriving DecidableEq, Repr

/-- The shift kinds of R96, R97 and R100, in the order of their codes 0b00 to 0b11. -/
inductive Shift where
  | lsl | lsr | asr | ror
  deriving DecidableEq, Repr

/-- An instruction of the opcode table. Fields have the table's names: `s` sets the flags, `u` adds the offset (else
subtracts), `w` asks for writeback, `p` is the `P` bit of format LSH. -/
inductive Instr where
  /-- `ORR{cond}{S} Rd, Rn, #imm` (R94, R95, R135). -/
  | orrImm (cond : Cond) (s : Bool) (rn rd : Reg) (rotateImm : BitVec 4) (immed8 : BitVec 8)
  /-- `ORR{cond}{S} Rd, Rn, Rm, <shift> #n` (R94, R96, R135). -/
  | orrShiftImm (cond : Cond) (s : Bool) (rn rd : Reg) (shiftImm : BitVec 5) (shift : Shift) (rm : Reg)
  /-- `ORR{cond}{S} Rd, Rn, Rm, <shift> Rs` (R94, R97, R135). -/
  | orrShiftReg (cond : Cond) (s : Bool) (rn rd rs : Reg) (shift : Shift) (rm : Reg)
  /-- `LDR{cond} Rd, [Rn, #±off]{!}` (R98, R160). -/
  | ldrImm (cond : Cond) (u w : Bool) (rn rd : Reg) (offset12 : BitVec 12)
  /-- `LDR{cond} Rd, [Rn], #±off` (R98, R160). -/
  | ldrImmPost (cond : Cond) (u : Bool) (rn rd : Reg) (offset12 : BitVec 12)
  /-- `LDR{cond} Rd, [Rn, ±Rm, <shift> #n]{!}` (R98, R160). -/
  | ldrReg (cond : Cond) (u w : Bool) (rn rd : Reg) (shiftImm : BitVec 5) (shift : Shift) (rm : Reg)
  /-- `LDR{cond} Rd, [Rn], ±Rm, <shift> #n` (R98, R160). -/
  | ldrRegPost (cond : Cond) (u : Bool) (rn rd : Reg) (shiftImm : BitVec 5) (shift : Shift) (rm : Reg)
  /-- `STR{cond} Rd, [Rn, #±off]{!}` (R98, R161). -/
  | strImm (cond : Cond) (u w : Bool) (rn rd : Reg) (offset12 : BitVec 12)
  /-- `STR{cond} Rd, [Rn], #±off` (R98, R161). -/
  | strImmPost (cond : Cond) (u : Bool) (rn rd : Reg) (offset12 : BitVec 12)
  /-- `STR{cond} Rd, [Rn, ±Rm, <shift> #n]{!}` (R98, R161). -/
  | strReg (cond : Cond) (u w : Bool) (rn rd : Reg) (shiftImm : BitVec 5) (shift : Shift) (rm : Reg)
  /-- `STR{cond} Rd, [Rn], ±Rm, <shift> #n` (R98, R161). -/
  | strRegPost (cond : Cond) (u : Bool) (rn rd : Reg) (shiftImm : BitVec 5) (shift : Shift) (rm : Reg)
  /-- `LDR{cond}B Rd, [Rn, #±off]{!}` (R98, R200). -/
  | ldrbImm (cond : Cond) (u w : Bool) (rn rd : Reg) (offset12 : BitVec 12)
  /-- `LDR{cond}B Rd, [Rn], #±off` (R98, R200). -/
  | ldrbImmPost (cond : Cond) (u : Bool) (rn rd : Reg) (offset12 : BitVec 12)
  /-- `LDR{cond}B Rd, [Rn, ±Rm, <shift> #n]{!}` (R98, R200). -/
  | ldrbReg (cond : Cond) (u w : Bool) (rn rd : Reg) (shiftImm : BitVec 5) (shift : Shift) (rm : Reg)
  /-- `LDR{cond}B Rd, [Rn], ±Rm, <shift> #n` (R98, R200). -/
  | ldrbRegPost (cond : Cond) (u : Bool) (rn rd : Reg) (shiftImm : BitVec 5) (shift : Shift) (rm : Reg)
  /-- `STR{cond}B Rd, [Rn, #±off]{!}` (R98, R201). -/
  | strbImm (cond : Cond) (u w : Bool) (rn rd : Reg) (offset12 : BitVec 12)
  /-- `STR{cond}B Rd, [Rn], #±off` (R98, R201). -/
  | strbImmPost (cond : Cond) (u : Bool) (rn rd : Reg) (offset12 : BitVec 12)
  /-- `STR{cond}B Rd, [Rn, ±Rm, <shift> #n]{!}` (R98, R201). -/
  | strbReg (cond : Cond) (u w : Bool) (rn rd : Reg) (shiftImm : BitVec 5) (shift : Shift) (rm : Reg)
  /-- `STR{cond}B Rd, [Rn], ±Rm, <shift> #n` (R98, R201). -/
  | strbRegPost (cond : Cond) (u : Bool) (rn rd : Reg) (shiftImm : BitVec 5) (shift : Shift) (rm : Reg)
  /-- `LDR{cond}H Rd, <[Rn, #±off]{!} or [Rn], #±off>` (R102, R180). -/
  | ldrhImm (cond : Cond) (p u w : Bool) (rn rd : Reg) (immedH immedL : BitVec 4)
  /-- `LDR{cond}H Rd, <[Rn, ±Rm]{!} or [Rn], ±Rm>` (R102, R180). -/
  | ldrhReg (cond : Cond) (p u w : Bool) (rn rd rm : Reg)
  /-- `STR{cond}H Rd, <[Rn, #±off]{!} or [Rn], #±off>` (R102, R181). -/
  | strhImm (cond : Cond) (p u w : Bool) (rn rd : Reg) (immedH immedL : BitVec 4)
  /-- `STR{cond}H Rd, <[Rn, ±Rm]{!} or [Rn], ±Rm>` (R102, R181). -/
  | strhReg (cond : Cond) (p u w : Bool) (rn rd rm : Reg)
  /-- `SWP{cond} Rd, Rm, [Rn]` (R105, R162). -/
  | swp (cond : Cond) (rn rd rm : Reg)
  /-- `SWP{cond}B Rd, Rm, [Rn]` (R105, R202). -/
  | swpb (cond : Cond) (rn rd rm : Reg)
  /-- `MRC{cond} p15, 0, Rd, c1, c0, 0` (R106, R130). -/
  | mrc (cond : Cond) (rd : Reg)
  /-- `MCR{cond} p15, 0, Rd, c1, c0, 0` (R106, R132). -/
  | mcr (cond : Cond) (rd : Reg)
  deriving DecidableEq, Repr

/-- The condition an instruction tests (R92). -/
def Instr.cond : Instr → Cond
  | .orrImm c .. | .orrShiftImm c .. | .orrShiftReg c .. => c
  | .ldrImm c .. | .ldrImmPost c .. | .ldrReg c .. | .ldrRegPost c .. => c
  | .strImm c .. | .strImmPost c .. | .strReg c .. | .strRegPost c .. => c
  | .ldrbImm c .. | .ldrbImmPost c .. | .ldrbReg c .. | .ldrbRegPost c .. => c
  | .strbImm c .. | .strbImmPost c .. | .strbReg c .. | .strbRegPost c .. => c
  | .ldrhImm c .. | .ldrhReg c .. | .strhImm c .. | .strhReg c .. => c
  | .swp c .. | .swpb c .. | .mrc c .. | .mcr c .. => c

/-- The register fields an instruction uses (R91, R110). -/
def Instr.regFields : Instr → List Reg
  | .orrImm _ _ rn rd _ _ => [rn, rd]
  | .orrShiftImm _ _ rn rd _ _ rm => [rn, rd, rm]
  | .orrShiftReg _ _ rn rd rs _ rm => [rn, rd, rs, rm]
  | .ldrImm _ _ _ rn rd _ | .ldrImmPost _ _ rn rd _ => [rn, rd]
  | .ldrReg _ _ _ rn rd _ _ rm | .ldrRegPost _ _ rn rd _ _ rm => [rn, rd, rm]
  | .strImm _ _ _ rn rd _ | .strImmPost _ _ rn rd _ => [rn, rd]
  | .strReg _ _ _ rn rd _ _ rm | .strRegPost _ _ rn rd _ _ rm => [rn, rd, rm]
  | .ldrbImm _ _ _ rn rd _ | .ldrbImmPost _ _ rn rd _ => [rn, rd]
  | .ldrbReg _ _ _ rn rd _ _ rm | .ldrbRegPost _ _ rn rd _ _ rm => [rn, rd, rm]
  | .strbImm _ _ _ rn rd _ | .strbImmPost _ _ rn rd _ => [rn, rd]
  | .strbReg _ _ _ rn rd _ _ rm | .strbRegPost _ _ rn rd _ _ rm => [rn, rd, rm]
  | .ldrhImm _ _ _ _ rn rd _ _ | .strhImm _ _ _ _ rn rd _ _ => [rn, rd]
  | .ldrhReg _ _ _ _ rn rd rm | .strhReg _ _ _ _ rn rd rm => [rn, rd, rm]
  | .swp _ rn rd rm | .swpb _ rn rd rm => [rn, rd, rm]
  | .mrc _ rd | .mcr _ rd => [rd]

/-- The classes of words R110 refuses, each under the name R110 gives it. -/
inductive RefusedClass where
  /-- `cond = 0b1111` (R114). -/
  | unconditionalSpace
  /-- Multiplies, and swaps whose bits [11:8] are not zero (R110, R115). -/
  | multiplyOrSwapNonzero
  /-- `LDRSB`, `LDRSH`, `LDRD`, `STRD` (R110, R182). -/
  | signedOrDoubleTransfer
  /-- `MRS`, `MSR`, `BX`, `BLX`, `CLZ`, `BKPT` and their neighbours (R110). -/
  | miscellaneousSpace
  /-- Data processing other than `ORR` (R110). -/
  | dataProcessingNotOrr
  /-- `MSR` immediate, or undefined (R110). -/
  | msrImmediateOrUndefined
  /-- `LDM`, `STM` (R110). -/
  | blockTransfer
  /-- `B`, `BL` (R110). -/
  | branch
  /-- `LDC`, `STC`, `MCRR`, `MRRC` (R110). -/
  | coprocessorTransfer
  /-- `SWI` (R110). -/
  | softwareInterrupt
  /-- `CDP` (R110). -/
  | coprocessorOperation
  /-- A register field the form uses holds 15 (R23, R110). -/
  | r15Operand
  /-- `LDRT`, `STRT`, `LDRBT`, `STRBT` (R98, R110). -/
  | userTranslation
  /-- Format LSH with a register offset and bits [11:8] not zero (R104, R115). -/
  | nonzeroShouldBeZero
  /-- `MRC` or `MCR` to a register other than CP15 register 1 (R131, R133). -/
  | coprocessorRegisterNotModelled
  deriving DecidableEq, Repr

/-- What decoding a word gives: exactly one of the three answers of R110. -/
inductive Decoded where
  | instr (i : Instr)
  | refused (why : RefusedClass)
  /-- The architecturally undefined space (R113). -/
  | undefined
  deriving DecidableEq, Repr

end Sys2Proof
end

