-- ==== Sys2Proof/WellFormed.lean ====
section
/-! DEFINITION. Which instructions the spec admits: no used register field holds 15 (spec/10_state.md R23,
spec/30_encoding.md R110). The other decode-time constraints hold by the shape of `Instr`. -/

namespace Sys2Proof

/-- Register 15 may not be named (R23). -/
def Reg.named (r : Reg) : Bool := r != 15#4

/-- Every register field the instruction uses names `r0` to `r14` (R23, R110). -/
def Instr.wellFormed (i : Instr) : Bool := i.regFields.all Reg.named

end Sys2Proof
end

