-- ==== Sys2Proof/Decode.lean ====
section
/-! DEFINITION. The decoder, total on every 32-bit word, in the test order of spec/30_encoding.md R110, and the encoder
written from the formats R94 to R106 and the rows of spec/opcode_table.json. -/

namespace Sys2Proof

/-! ### Fields of an instruction word -/

/-- Bits `[lo+n-1:lo]` of an instruction word (R6, R90). -/
def field (w : Word) (lo n : Nat) : BitVec n := w.extractLsb' lo n

/-- Bit `i` of an instruction word (R6). -/
def bit (w : Word) (i : Nat) : Bool := w.getLsbD i

/-- The condition codes of R92. -/
def Cond.code : Cond → BitVec 4
  | .eq => 0b0000#4 | .ne => 0b0001#4 | .cs => 0b0010#4 | .cc => 0b0011#4
  | .mi => 0b0100#4 | .pl => 0b0101#4 | .vs => 0b0110#4 | .vc => 0b0111#4
  | .hi => 0b1000#4 | .ls => 0b1001#4 | .ge => 0b1010#4 | .lt => 0b1011#4
  | .gt => 0b1100#4 | .le => 0b1101#4 | .al => 0b1110#4

/-- The condition a code stands for; 0b1111 is none (R92, R114). -/
def Cond.ofCode (c : BitVec 4) : Option Cond :=
  [Cond.eq, .ne, .cs, .cc, .mi, .pl, .vs, .vc, .hi, .ls, .ge, .lt, .gt, .le, .al][c.toNat]?

/-- The shift codes of R96, R97, R100. -/
def Shift.code : Shift → BitVec 2
  | .lsl => 0b00#2 | .lsr => 0b01#2 | .asr => 0b10#2 | .ror => 0b11#2

/-- The shift kind of a code (R96). -/
def Shift.ofCode (c : BitVec 2) : Shift :=
  match c.toNat with
  | 0 => .lsl
  | 1 => .lsr
  | 2 => .asr
  | _ => .ror

/-! ### The decoder -/

/-- The last tests of R110: register 15 first, then the form's own constraint. -/
def accept (i : Instr) (ok : Bool) (why : RefusedClass) : Decoded :=
  if i.wellFormed then (if ok then .instr i else .refused why) else .refused .r15Operand

/-- Format DP, immediate (R94, R95). -/
def decodeOrrImm (c : Cond) (w : Word) : Decoded :=
  accept (.orrImm c (bit w 20) (field w 16 4) (field w 12 4) (field w 8 4) (field w 0 8)) true .r15Operand

/-- Format DP, register forms (R94, R96, R97). -/
def decodeOrrReg (c : Cond) (w : Word) : Decoded :=
  if bit w 4 then
    accept (.orrShiftReg c (bit w 20) (field w 16 4) (field w 12 4) (field w 8 4) (Shift.ofCode (field w 5 2))
      (field w 0 4)) true .r15Operand
  else
    accept (.orrShiftImm c (bit w 20) (field w 16 4) (field w 12 4) (field w 7 5) (Shift.ofCode (field w 5 2))
      (field w 0 4)) true .r15Operand

/-- The instruction of format LS with an immediate offset that bits 24 (`P`), 22 (`B`) and 20 (`L`) select (R98). -/
def loadStoreImm (c : Cond) (w : Word) : Instr :=
  match bit w 24, bit w 22, bit w 20 with
  | true, false, true => .ldrImm c (bit w 23) (bit w 21) (field w 16 4) (field w 12 4) (field w 0 12)
  | true, false, false => .strImm c (bit w 23) (bit w 21) (field w 16 4) (field w 12 4) (field w 0 12)
  | true, true, true => .ldrbImm c (bit w 23) (bit w 21) (field w 16 4) (field w 12 4) (field w 0 12)
  | true, true, false => .strbImm c (bit w 23) (bit w 21) (field w 16 4) (field w 12 4) (field w 0 12)
  | false, false, true => .ldrImmPost c (bit w 23) (field w 16 4) (field w 12 4) (field w 0 12)
  | false, false, false => .strImmPost c (bit w 23) (field w 16 4) (field w 12 4) (field w 0 12)
  | false, true, true => .ldrbImmPost c (bit w 23) (field w 16 4) (field w 12 4) (field w 0 12)
  | false, true, false => .strbImmPost c (bit w 23) (field w 16 4) (field w 12 4) (field w 0 12)

/-- The same with a scaled register offset (R98). -/
def loadStoreReg (c : Cond) (w : Word) : Instr :=
  match bit w 24, bit w 22, bit w 20 with
  | true, false, true =>
    .ldrReg c (bit w 23) (bit w 21) (field w 16 4) (field w 12 4) (field w 7 5) (Shift.ofCode (field w 5 2)) (field w 0 4)
  | true, false, false =>
    .strReg c (bit w 23) (bit w 21) (field w 16 4) (field w 12 4) (field w 7 5) (Shift.ofCode (field w 5 2)) (field w 0 4)
  | true, true, true =>
    .ldrbReg c (bit w 23) (bit w 21) (field w 16 4) (field w 12 4) (field w 7 5) (Shift.ofCode (field w 5 2)) (field w 0 4)
  | true, true, false =>
    .strbReg c (bit w 23) (bit w 21) (field w 16 4) (field w 12 4) (field w 7 5) (Shift.ofCode (field w 5 2)) (field w 0 4)
  | false, false, true =>
    .ldrRegPost c (bit w 23) (field w 16 4) (field w 12 4) (field w 7 5) (Shift.ofCode (field w 5 2)) (field w 0 4)
  | false, false, false =>
    .strRegPost c (bit w 23) (field w 16 4) (field w 12 4) (field w 7 5) (Shift.ofCode (field w 5 2)) (field w 0 4)
  | false, true, true =>
    .ldrbRegPost c (bit w 23) (field w 16 4) (field w 12 4) (field w 7 5) (Shift.ofCode (field w 5 2)) (field w 0 4)
  | false, true, false =>
    .strbRegPost c (bit w 23) (field w 16 4) (field w 12 4) (field w 7 5) (Shift.ofCode (field w 5 2)) (field w 0 4)

/-- Format LS: `P = 0` with `W = 1` is refused (R98, R110). -/
def acceptLoadStore (w : Word) (i : Instr) : Decoded := accept i (bit w 24 || !bit w 21) .userTranslation

/-- Format LSH: immediate forms (bit 22 set) and register forms, whose bits [11:8] must be zero (R102, R104). -/
def decodeHalf (c : Cond) (w : Word) : Decoded :=
  match bit w 22, bit w 20 with
  | true, true =>
    accept (.ldrhImm c (bit w 24) (bit w 23) (bit w 21) (field w 16 4) (field w 12 4) (field w 8 4) (field w 0 4))
      true .r15Operand
  | true, false =>
    accept (.strhImm c (bit w 24) (bit w 23) (bit w 21) (field w 16 4) (field w 12 4) (field w 8 4) (field w 0 4))
      true .r15Operand
  | false, true =>
    accept (.ldrhReg c (bit w 24) (bit w 23) (bit w 21) (field w 16 4) (field w 12 4) (field w 0 4))
      (field w 8 4 == 0#4) .nonzeroShouldBeZero
  | false, false =>
    accept (.strhReg c (bit w 24) (bit w 23) (bit w 21) (field w 16 4) (field w 12 4) (field w 0 4))
      (field w 8 4 == 0#4) .nonzeroShouldBeZero

/-- Format SW: bits [27:23], [21:20] and [11:8] are fixed (R105, R110). -/
def decodeSwap (c : Cond) (w : Word) : Decoded :=
  if field w 23 5 == 0b00010#5 && field w 20 2 == 0b00#2 && field w 8 4 == 0b0000#4 then
    (if bit w 22 then accept (.swpb c (field w 16 4) (field w 12 4) (field w 0 4)) true .r15Operand
     else accept (.swp c (field w 16 4) (field w 12 4) (field w 0 4)) true .r15Operand)
  else .refused .multiplyOrSwapNonzero

/-- Format CR: only CP15 register 1 by `opcode_1 = 0, CRm = 0, opcode_2 = 0` is admitted (R106, R131, R133). -/
def decodeCoprocessor (c : Cond) (w : Word) : Decoded :=
  accept (if bit w 20 then .mrc c (field w 12 4) else .mcr c (field w 12 4))
    (field w 8 4 == 0b1111#4 && field w 21 3 == 0b000#3 && field w 16 4 == 0b0001#4 && field w 0 4 == 0b0000#4
      && field w 5 3 == 0b000#3)
    .coprocessorRegisterNotModelled

/-- Bits [27:25] = 0b000 (R110). -/
def decodeClass0 (c : Cond) (w : Word) : Decoded :=
  if bit w 7 && bit w 4 then
    (match (field w 5 2).toNat with
     | 0 => decodeSwap c w
     | 1 => decodeHalf c w
     | _ => .refused .signedOrDoubleTransfer)
  else if field w 23 2 == 0b10#2 && !bit w 20 then .refused .miscellaneousSpace
  else if field w 21 4 == 0b1100#4 then decodeOrrReg c w
  else .refused .dataProcessingNotOrr

/-- Bits [27:25] = 0b001 (R110). -/
def decodeClass1 (c : Cond) (w : Word) : Decoded :=
  if field w 23 2 == 0b10#2 && !bit w 20 then .refused .msrImmediateOrUndefined
  else if field w 21 4 == 0b1100#4 then decodeOrrImm c w
  else .refused .dataProcessingNotOrr

/-- Bits [27:25] = 0b111 (R110). -/
def decodeClass7 (c : Cond) (w : Word) : Decoded :=
  if bit w 24 then .refused .softwareInterrupt
  else if bit w 4 then decodeCoprocessor c w
  else .refused .coprocessorOperation

/-- Decoding a word: every word gets exactly one of an instruction, a refusal by name, or the undefined space, before
the condition is evaluated (R110, R112 to R115). -/
def decode (w : Word) : Decoded :=
  match Cond.ofCode (field w 28 4) with
  | none => .refused .unconditionalSpace
  | some c =>
    match (field w 25 3).toNat with
    | 0 => decodeClass0 c w
    | 1 => decodeClass1 c w
    | 2 => acceptLoadStore w (loadStoreImm c w)
    | 3 => if bit w 4 then .undefined else acceptLoadStore w (loadStoreReg c w)
    | 4 => .refused .blockTransfer
    | 5 => .refused .branch
    | 6 => .refused .coprocessorTransfer
    | _ => decodeClass7 c w

/-- The host's question: the instruction the decoder reads from a table row's word. An instruction is one 32-bit word
(R90), so bit 0 of the table is bit 0 of `W[pc]`. -/
def decodeTableWord (nbits w : Nat) : Option Instr :=
  match decode (BitVec.ofNat 32 (w % 2 ^ nbits)) with
  | .instr i => some i
  | _ => none

/-! ### The encoder -/

/-- A field put at the bits it has in the formats: bit 0 of `v` at bit `lo` of the word. -/
def place {n : Nat} (v : BitVec n) (lo : Nat) : Word := v.setWidth 32 <<< lo

/-- A one-bit field. -/
def placeBit (b : Bool) (lo : Nat) : Word := place (BitVec.ofBool b) lo

/-- Bits [31:28], `cond`, [19:16], `Rn`, and [15:12], `Rd`, which most formats share (R90, R91). -/
def encodeCommon (c : Cond) (rn rd : Reg) : Word := place c.code 28 ||| place rn 16 ||| place rd 12

/-- Format DP with opcode 0b1100 (R94); `cls` is bits [27:25], the last of them `I`. -/
def encodeOrr (c : Cond) (cls : BitVec 3) (s : Bool) (rn rd : Reg) : Word :=
  encodeCommon c rn rd ||| place cls 25 ||| place 0b1100#4 21 ||| placeBit s 20

/-- Bits [27:20] of formats LS and LSH: the class, `P`, `U`, bit 22, `W`, `L` (R98, R102). -/
def encodeTransfer (c : Cond) (cls : BitVec 3) (p u b w l : Bool) (rn rd : Reg) : Word :=
  encodeCommon c rn rd ||| place cls 25 ||| placeBit p 24 ||| placeBit u 23 ||| placeBit b 22 ||| placeBit w 21
    ||| placeBit l 20

/-- A register with an immediate shift, bits [11:0] with bit 4 zero (R96, R98). -/
def encodeShifted (n : BitVec 5) (sh : Shift) (rm : Reg) : Word := place n 7 ||| place sh.code 5 ||| place rm 0

/-- Format LS with an immediate offset (R98). -/
def encodeLoadStoreImm (c : Cond) (p u b w l : Bool) (rn rd : Reg) (off : BitVec 12) : Word :=
  encodeTransfer c 0b010#3 p u b w l rn rd ||| place off 0

/-- Format LS with a scaled register offset (R98). -/
def encodeLoadStoreReg (c : Cond) (p u b w l : Bool) (rn rd : Reg) (n : BitVec 5) (sh : Shift) (rm : Reg) : Word :=
  encodeTransfer c 0b011#3 p u b w l rn rd ||| encodeShifted n sh rm

/-- Format LSH (R102); `i` is its bit 22, `high` its bits [11:8] and `low` its bits [3:0]. -/
def encodeHalf (c : Cond) (p u i w l : Bool) (rn rd : Reg) (high low : BitVec 4) : Word :=
  encodeTransfer c 0b000#3 p u i w l rn rd ||| place high 8 ||| place 0b1011#4 4 ||| place low 0

/-- Format SW (R105). -/
def encodeSwap (c : Cond) (b : Bool) (rn rd rm : Reg) : Word :=
  encodeCommon c rn rd ||| place 0b00010#5 23 ||| placeBit b 22 ||| place 0b1001#4 4 ||| place rm 0

/-- Format CR with the fields of R130 and R132: `CRn` 1, `cp_num` 15, the rest 0. -/
def encodeCoprocessor (c : Cond) (l : Bool) (rd : Reg) : Word :=
  encodeCommon c 0b0001#4 rd ||| place 0b1110#4 24 ||| placeBit l 20 ||| place 0b1111#4 8 ||| placeBit true 4

/-- The word of an instruction (R94 to R106). -/
def encode : Instr → Word
  | .orrImm c s rn rd r i => encodeOrr c 0b001#3 s rn rd ||| place r 8 ||| place i 0
  | .orrShiftImm c s rn rd n sh rm => encodeOrr c 0b000#3 s rn rd ||| encodeShifted n sh rm
  | .orrShiftReg c s rn rd rs sh rm =>
    encodeOrr c 0b000#3 s rn rd ||| place rs 8 ||| place sh.code 5 ||| placeBit true 4 ||| place rm 0
  | .ldrImm c u w rn rd off => encodeLoadStoreImm c true u false w true rn rd off
  | .ldrImmPost c u rn rd off => encodeLoadStoreImm c false u false false true rn rd off
  | .ldrReg c u w rn rd n sh rm => encodeLoadStoreReg c true u false w true rn rd n sh rm
  | .ldrRegPost c u rn rd n sh rm => encodeLoadStoreReg c false u false false true rn rd n sh rm
  | .strImm c u w rn rd off => encodeLoadStoreImm c true u false w false rn rd off
  | .strImmPost c u rn rd off => encodeLoadStoreImm c false u false false false rn rd off
  | .strReg c u w rn rd n sh rm => encodeLoadStoreReg c true u false w false rn rd n sh rm
  | .strRegPost c u rn rd n sh rm => encodeLoadStoreReg c false u false false false rn rd n sh rm
  | .ldrbImm c u w rn rd off => encodeLoadStoreImm c true u true w true rn rd off
  | .ldrbImmPost c u rn rd off => encodeLoadStoreImm c false u true false true rn rd off
  | .ldrbReg c u w rn rd n sh rm => encodeLoadStoreReg c true u true w true rn rd n sh rm
  | .ldrbRegPost c u rn rd n sh rm => encodeLoadStoreReg c false u true false true rn rd n sh rm
  | .strbImm c u w rn rd off => encodeLoadStoreImm c true u true w false rn rd off
  | .strbImmPost c u rn rd off => encodeLoadStoreImm c false u true false false rn rd off
  | .strbReg c u w rn rd n sh rm => encodeLoadStoreReg c true u true w false rn rd n sh rm
  | .strbRegPost c u rn rd n sh rm => encodeLoadStoreReg c false u true false false rn rd n sh rm
  | .ldrhImm c p u w rn rd h l => encodeHalf c p u true w true rn rd h l
  | .ldrhReg c p u w rn rd rm => encodeHalf c p u false w true rn rd 0#4 rm
  | .strhImm c p u w rn rd h l => encodeHalf c p u true w false rn rd h l
  | .strhReg c p u w rn rd rm => encodeHalf c p u false w false rn rd 0#4 rm
  | .swp c rn rd rm => encodeSwap c false rn rd rm
  | .swpb c rn rd rm => encodeSwap c true rn rd rm
  | .mrc c rd => encodeCoprocessor c true rd
  | .mcr c rd => encodeCoprocessor c false rd

end Sys2Proof
end

