-- ==== Sys2Proof/Machine/Memory.lean ====
section
/-! DEFINITION. Memory: the map `W` from word-aligned addresses to 32-bit words (spec/10_state.md R31), kept as a
canonical list of cells. The cell at `a + k`, with `a` word aligned and `k` 0 to 3, holds bits [8k+7:8k] of `W[a]`
WHATEVER THE BYTE ORDER IS: a cell is a lane of a word, not the byte a program finds at that address (log 1). Which
lane a byte or half-word address selects is spec/20_memory.md R51 and R52. -/

namespace Sys2Proof.Machine

/-- The cells that differ from what an unlisted cell reads as, by rising address. -/
abbrev Memory := List Host.Cell

/-- One cell. An unlisted cell reads as `Config.unlistedByte` (log 2); past a greater address nothing is listed. -/
def Memory.get : Memory → Nat → Byte
  | [], _ => Config.unlistedByte
  | (k, b) :: rest, a => if k = a then b else if a < k then Config.unlistedByte else Memory.get rest a

/-- Writing one cell keeps the canonical form: an unlisted value removes the entry. (The `dropWhile` drops nothing from
a canonical list; with it a read gives what was written in every list.) -/
def Memory.put : Memory → Nat → Byte → Memory
  | [], a, v => if v = Config.unlistedByte then [] else [(a, v)]
  | (k, b) :: rest, a, v =>
    if k < a then (k, b) :: Memory.put rest a v
    else if k = a then (if v = Config.unlistedByte then rest.dropWhile (fun e => e.1 ≤ a) else (a, v) :: rest)
    else if v = Config.unlistedByte then (k, b) :: rest
    else (a, v) :: (k, b) :: rest

/-- Canonical from address `lo` on: addresses strictly rising and inside the 32-bit space, no entry with the value an
unlisted cell has. -/
def Memory.wfFrom (lo : Nat) : Memory → Bool
  | [] => true
  | (k, b) :: rest =>
    decide (lo ≤ k) && decide (k < 2 ^ 32) && (b != Config.unlistedByte) && Memory.wfFrom (k + 1) rest

/-- The canonical form of memory. -/
def Memory.wf (m : Memory) : Bool := Memory.wfFrom 0 m

/-- The word-aligned address of the word that contains `addr`: `addr & 0xFFFFFFFC` (R56 to R61). -/
def align (addr : Word) : Word := addr &&& 0xFFFFFFFC#32

/-- `W[a]` for a word-aligned `a` (R31). -/
def Memory.word (m : Memory) (a : Word) : Word :=
  place (m.get (a.toNat + 3)) 24 ||| place (m.get (a.toNat + 2)) 16 ||| place (m.get (a.toNat + 1)) 8
    ||| place (m.get a.toNat) 0

/-- `W[a] <- v` for a word-aligned `a` (R59). -/
def Memory.putWord (m : Memory) (a v : Word) : Memory :=
  (((m.put a.toNat (field v 0 8)).put (a.toNat + 1) (field v 8 8)).put (a.toNat + 2) (field v 16 8)).put
    (a.toNat + 3) (field v 24 8)

/-- The byte lane of its word that a byte address selects: with `k = addr[1:0]`, lane `3 - k` under big endian
(`w[31-8k:24-8k]`, R51) and lane `k` under little endian (`w[8k+7:8k]`, R52). -/
def byteLane (big : Bool) (addr : Word) : Nat :=
  if big then 3 - (field addr 0 2).toNat else (field addr 0 2).toNat

/-- The half-word lane of its word that a half-word-aligned address selects: with `h = addr[1]`, lane `1 - h` under big
endian (`w[31-16h:16-16h]`, R51) and lane `h` under little endian (`w[16h+15:16h]`, R52). -/
def halfLane (big : Bool) (addr : Word) : Nat :=
  if big then 1 - (field addr 1 1).toNat else (field addr 1 1).toNat

/-- The byte at `addr` under the byte order `big` (R51, R52, R58). -/
def Memory.byte (m : Memory) (big : Bool) (addr : Word) : Byte :=
  field (m.word (align addr)) (8 * byteLane big addr) 8

/-- The half word at a half-word-aligned `addr` under the byte order `big` (R51, R52, R57). -/
def Memory.half (m : Memory) (big : Bool) (addr : Word) : Half :=
  field (m.word (align addr)) (16 * halfLane big addr) 16

/-- One byte lane of `W[addr & 0xFFFFFFFC]` replaced, the other three unchanged (R61). -/
def Memory.putByte (m : Memory) (big : Bool) (addr : Word) (v : Byte) : Memory :=
  m.put ((align addr).toNat + byteLane big addr) v

/-- One half-word lane of `W[addr & 0xFFFFFFFC]` replaced, the other unchanged (R60). -/
def Memory.putHalf (m : Memory) (big : Bool) (addr : Word) (v : Half) : Memory :=
  (m.put ((align addr).toNat + 2 * halfLane big addr) (v.extractLsb' 0 8)).put
    ((align addr).toNat + 2 * halfLane big addr + 1) (v.extractLsb' 8 8)

end Sys2Proof.Machine
end

