-- ==== Sys2Proof/Machine/State.lean ====
section
/-! DEFINITION. The state of the machine as plain data, everything the spec gives it (spec/10_state.md, spec/00_scope.md
R14), the reasons a step can stop (spec/00_scope.md R10, spec/60_exceptions.md R221), and the state after reset
(spec/10_state.md R37, R38). -/

namespace Sys2Proof.Machine

/-- The processor modes of spec/60_exceptions.md R230. -/
inductive Mode where
  | user | fiq | irq | supervisor | abort | undefined | system
  deriving DecidableEq, Repr

/-- The Current Program Status Register, field by field (spec/10_state.md R25, R26). Only `ORR` with `S = 1` writes
any of it: `n`, `z` and `c`. -/
structure Cpsr where
  /-- Bits 31 to 28, the condition flags (R25). -/
  n : Bool
  z : Bool
  c : Bool
  v : Bool
  /-- Bit 27; no in-scope instruction reads or writes it (R26). -/
  q : Bool
  /-- Bits 26:8 (R26). -/
  reserved : BitVec 19
  /-- Bit 7, IRQ disabled (R26). -/
  i : Bool
  /-- Bit 6, FIQ disabled (R26). -/
  f : Bool
  /-- Bit 5, Thumb state (R26, R117). -/
  t : Bool
  /-- Bits 4:0 (R26, R230). -/
  mode : Mode
  deriving DecidableEq, Repr

/-- A range of byte addresses, `base` to `base + size - 1`. -/
structure Region where
  base : Nat
  size : Nat
  deriving DecidableEq, Repr

/-- The launch parameters of spec/00_scope.md R5 and R14. No step changes them; they stand in the state so that a
statement about every state holds for every platform (log 6). -/
structure Platform where
  /-- `Mapped`: the words that hold memory (spec/20_memory.md R70). -/
  mapped : List Region
  /-- `TEXT`: the words that hold the program, which no store may change (spec/20_memory.md R75). -/
  text : List Region
  /-- `HALT`: the addresses at which a run is over (spec/00_scope.md R15). -/
  halt : List Word
  /-- `B_EFFECT_DELAY` (spec/10_state.md R34). -/
  bEffectDelay : Nat
  deriving DecidableEq, Repr

/-- The machine's state. -/
structure State where
  /-- `r0` to `r14` (R20). -/
  regs : Vector Word 15
  /-- The address of the instruction being executed (R24). -/
  pc : Word
  /-- The status register (R25, R26). -/
  cpsr : Cpsr
  /-- `CP15[1]`, the Control Register; bit 7 is `B` (R27, R28, R29). -/
  control : Word
  /-- `W` (R31). -/
  mem : Memory
  /-- The ghost bit `SubwordDone` (R33). -/
  subwordDone : Bool
  /-- The ghost counter `BSettle` (R34). -/
  bSettle : Nat
  /-- The launch parameters (spec/00_scope.md R14). -/
  platform : Platform
  /-- The MODEL's own field, not the spec's: how many free values have been drawn (log 9). -/
  drawn : Nat
  deriving DecidableEq, Repr

/-- The causes of the outcome `UNPREDICTABLE` (spec/60_exceptions.md R221), each with the value R221 records. All are
safe: the model stops where the hardware does something the spec gives no effect of. -/
inductive Unpredictable where
  /-- A writeback form with `Rn = Rd` (R101, R104): loads and stores; the word. -/
  | writebackRnRd (word : Word)
  /-- A writeback form with `Rm = Rn` (R101, R104): loads and stores; the word. -/
  | writebackRmRn (word : Word)
  /-- `LDRH` or `STRH` with `P = 0` and `W = 1` (R103); the word. -/
  | halfP0W1 (word : Word)
  /-- `SWP` or `SWPB` with `Rn = Rm` or `Rn = Rd` (R105); the word. -/
  | swapBase (word : Word)
  /-- `MCR` changes `B` while `SubwordDone = 1` (R134). -/
  | bChangedAfterSubword
  /-- A sub-word access with `BSettle > 0` (R34). -/
  | bNotYetInEffect
  /-- An instruction at 0xFFFFFFFC would complete (R24). -/
  | pcWrap
  deriving DecidableEq, Repr

/-- Why the machine stops with a fault. Every one is terminal and changes no state (R221). -/
inductive Fault where
  /-- Raised by every instruction whose case R221 calls `UNPREDICTABLE`. Safe. -/
  | unpredictable (what : Unpredictable)
  /-- Raised by loads, stores and swaps whose word is not mapped; the computed address (R56 to R61). Safe. -/
  | dataAbort (addr : Word)
  /-- Raised by the fetch when `pc` is misaligned or not mapped; `pc` (R24, R56). Safe. -/
  | prefetchAbort (addr : Word)
  /-- Raised by the decoder for the undefined space (R113), and by `MRC` and `MCR` in User mode (R139, R223); the
  word. Safe. -/
  | undefinedInstruction (word : Word)
  /-- Raised by the step when `pc` is in `HALT`: the run is over, and this is no abnormal outcome (R15). Safe. -/
  | runOver
  deriving DecidableEq, Repr

/-- What the model gives no meaning to, by name (R10). All are safe: a refusal is never a no-op (R112). -/
inductive Refusal where
  /-- An arm of `exec` that has no meaning yet, by its mnemonic. Raised by no arm of this model. -/
  | notModelled (mnemonic : String)
  /-- Raised by the decoder (R110), and by every meaning for a register field of 15 (R23); the class and the word. -/
  | encoding (why : RefusedClass) (word : Word)
  /-- Raised by `MCR` when a bit other than bit 7 would change (R133); the word (R221). -/
  | controlBitOtherThanB (word : Word)
  /-- Raised by stores and swaps into `TEXT`; the address (R75). -/
  | storeIntoText (addr : Word)
  /-- Raised by the step when the `T` bit is set: Thumb is out of scope (R117). -/
  | thumbState
  deriving DecidableEq, Repr

/-- The outcome of an instruction or a step. -/
abbrev Out := Host.Outcome State Fault Refusal

/-- The CPSR after reset: IRQ and FIQ disabled, ARM state, Supervisor mode (R38, PRESUMED, log 5); the flags and the
remaining bits at DESIGN CHOICE zero (log 4). -/
def Cpsr.reset : Cpsr where
  n := false
  z := false
  c := false
  v := false
  q := false
  reserved := 0
  i := true
  f := true
  t := false
  mode := .supervisor

/-- The launch parameters the model takes at reset: everything mapped, no program text declared, no halting address
(DESIGN CHOICE, log 6), and the spec's default delay (R5). -/
def Platform.reset : Platform where
  mapped := [⟨0, 2 ^ 32⟩]
  text := []
  halt := []
  bEffectDelay := Config.resetEffectDelay

/-- The machine right after reset (R37, R38, R251). -/
def State.reset : State where
  regs := Vector.replicate 15 Config.resetReg
  pc := Config.resetPc
  cpsr := Cpsr.reset
  control := Config.resetControl
  mem := []
  subwordDone := false
  bSettle := 0
  platform := Platform.reset
  drawn := 0

end Sys2Proof.Machine
end

