-- ==== Sys2Proof/Machine/Flags.lean ====
section
/-! DEFINITION. The condition flags: the tests of spec/30_encoding.md R92 and R93, and the flags `ORR` with `S = 1`
writes (spec/40_endian_config.md R135). -/

namespace Sys2Proof.Machine

/-- `ConditionPassed(cond)`: the "passes when" column of R92 (R93). -/
def conditionPassed (c : Cond) (f : Cpsr) : Bool :=
  match c with
  | .eq => f.z
  | .ne => !f.z
  | .cs => f.c
  | .cc => !f.c
  | .mi => f.n
  | .pl => !f.n
  | .vs => f.v
  | .vc => !f.v
  | .hi => f.c && !f.z
  | .ls => !f.c || f.z
  | .ge => f.n == f.v
  | .lt => f.n != f.v
  | .gt => !f.z && f.n == f.v
  | .le => f.z || f.n != f.v
  | .al => true

/-- `N`, `Z` and `C` from a result and the shifter's carry-out; `V` and every other field unchanged (R135). -/
def Cpsr.withResult (f : Cpsr) (r : Word) (carry : Bool) : Cpsr :=
  { f with n := bit r 31, z := r == 0#32, c := carry }

/-- Bits 4:0 of the CPSR for a mode (spec/60_exceptions.md R230). -/
def Mode.bits : Mode → BitVec 5
  | .user => 0b10000#5
  | .fiq => 0b10001#5
  | .irq => 0b10010#5
  | .supervisor => 0b10011#5
  | .abort => 0b10111#5
  | .undefined => 0b11011#5
  | .system => 0b11111#5

/-- Every mode but User is privileged (R230). -/
def Mode.privileged (m : Mode) : Bool := m != .user

/-- The CPSR as one word (R25, R26). -/
def Cpsr.word (f : Cpsr) : Word :=
  placeBit f.n 31 ||| placeBit f.z 30 ||| placeBit f.c 29 ||| placeBit f.v 28 ||| placeBit f.q 27
    ||| place f.reserved 8 ||| placeBit f.i 7 ||| placeBit f.f 6 ||| placeBit f.t 5 ||| place f.mode.bits 0

end Sys2Proof.Machine
end

