-- ==== Sys2Proof/Machine/Operands.lean ====
section
/-! DEFINITION. Every operand form: the shifter operands of `ORR` with their carry-outs (spec/30_encoding.md R95 to R97),
the offsets of the loads and stores (R99, R100, R103, R107), and the indexing of their addresses (R99, R103). -/

namespace Sys2Proof.Machine

/-- `ROR32(v, n)` for `n` from 0 to 31 (spec/00_scope.md R8). -/
def ror32 (v : Word) (n : Nat) : Word := if n = 0 then v else (v >>> n) ||| (v <<< (32 - n))

/-- All 32 bits equal to bit 31 of `m`. -/
def signFill (m : Word) : Word := if bit m 31 then 0xFFFFFFFF#32 else 0x00000000#32

/-! ### Shifter operands: the operand and its carry-out -/

/-- The immediate form (R95). -/
def immediateOperand (rotateImm : BitVec 4) (immed8 : BitVec 8) (c : Bool) : Word × Bool :=
  let operand := ror32 (immed8.setWidth 32) (2 * rotateImm.toNat)
  (operand, if rotateImm = 0#4 then c else bit operand 31)

/-- A register shifted by an immediate (R96). With amount 0, `LSR` and `ASR` mean 32 and `ROR` means `RRX`. -/
def shiftByImmediate (m : Word) (shift : Shift) (shiftImm : BitVec 5) (c : Bool) : Word × Bool :=
  let n := shiftImm.toNat
  match shift with
  | .lsl => if n = 0 then (m, c) else (m <<< n, bit m (32 - n))
  | .lsr => if n = 0 then (0#32, bit m 31) else (m >>> n, bit m (n - 1))
  | .asr => if n = 0 then (signFill m, bit m 31) else (m.sshiftRight n, bit m (n - 1))
  | .ror => if n = 0 then (placeBit c 31 ||| m >>> 1, bit m 0) else (ror32 m n, bit m (n - 1))

/-- A register shifted by the low byte of another, `amount = x[Rs][7:0]` (R97). -/
def shiftByRegister (m : Word) (shift : Shift) (amount : BitVec 8) (c : Bool) : Word × Bool :=
  let n := amount.toNat
  if n = 0 then (m, c)
  else
    match shift with
    | .lsl =>
      if n < 32 then (m <<< n, bit m (32 - n)) else if n = 32 then (0#32, bit m 0) else (0#32, false)
    | .lsr =>
      if n < 32 then (m >>> n, bit m (n - 1)) else if n = 32 then (0#32, bit m 31) else (0#32, false)
    | .asr => if n < 32 then (m.sshiftRight n, bit m (n - 1)) else (signFill m, bit m 31)
    | .ror => if n % 32 = 0 then (m, bit m 31) else (ror32 m (n % 32), bit m (n % 32 - 1))

/-! ### Offsets of the loads and stores -/

/-- `ShiftOffset(m, shift, n)`: the operand column of R96 without the carry (R100). -/
def shiftOffset (m : Word) (shift : Shift) (shiftImm : BitVec 5) (c : Bool) : Word :=
  (shiftByImmediate m shift shiftImm c).1

/-- The 12-bit offset of format LS, unscaled (R99, R107). -/
def offset12Word (offset12 : BitVec 12) : Word := offset12.setWidth 32

/-- The 8-bit offset of format LSH, `immedH : immedL`, unscaled (R103, R107). -/
def splitOffset (immedH immedL : BitVec 4) : Word := place immedH 4 ||| place immedL 0

/-! ### Indexing -/

/-- How the address of a load or store is formed and whether the base is written back (R99, R103). -/
inductive Index where
  /-- `P = 1, W = 0`: `[Rn, off]`. -/
  | offset
  /-- `P = 1, W = 1`: `[Rn, off]!`. -/
  | preIndexed
  /-- `P = 0, W = 0`: `[Rn], off`. -/
  | postIndexed
  deriving DecidableEq, Repr

/-- The indexing of a row with `P = 1` (R99). -/
def Index.ofW (w : Bool) : Index := if w then .preIndexed else .offset

/-- The indexing of format LSH; `P = 0` with `W = 1` has none (R103). -/
def Index.ofPW (p w : Bool) : Option Index :=
  match p, w with
  | true, w => some (Index.ofW w)
  | false, false => some .postIndexed
  | false, true => none

/-- Whether the base register is written back (R99). -/
def Index.writesBack (x : Index) : Bool := x != .offset

/-- `idx`: the base plus or minus the offset, modulo 2^32 (R99, R103). -/
def indexed (up : Bool) (base off : Word) : Word := if up then base + off else base - off

/-- `addr`: the base itself when post-indexed, else `idx` (R99, R103). -/
def accessAddress (x : Index) (up : Bool) (base off : Word) : Word :=
  if x = .postIndexed then base else indexed up base off

/-- The operands of a load or store, its offset already a value. -/
structure Transfer where
  rn : Reg
  rd : Reg
  /-- The offset register, in the register forms. -/
  rm : Option Reg
  index : Index
  up : Bool
  off : Word
  deriving DecidableEq, Repr

/-- The operand combinations that are UNPREDICTABLE (R101 (b), (c); R104 (b), (c)). -/
def Transfer.clash (t : Transfer) (word : Word) : Option Unpredictable :=
  if t.index.writesBack && t.rn == t.rd then some (.writebackRnRd word)
  else if t.index.writesBack && t.rm == some t.rn then some (.writebackRmRn word)
  else none

end Sys2Proof.Machine
end

