-- ==== Sys2Proof/Machine/Ops.lean ====
section
/-! DEFINITION. The named operations over registers, the Control Register and memory, the ways an instruction ends
(spec/00_scope.md R9, R10, R15; spec/60_exceptions.md R221), and the transfers the load, store and swap instructions
share (spec/41_word_access.md, 42_halfword_access.md, 43_byte_access.md). -/

namespace Sys2Proof.Machine

/-! ### Registers -/

/-- `x[i]` (R9, R20). Register 15 is the program counter and may not be named (R23): every meaning refuses it before
reading. -/
def State.reg (s : State) (r : Reg) : Word := if h : r.toNat < 15 then s.regs[r.toNat] else s.pc

/-- `x[i] <- v` (R9, R20). Writing register 15 does nothing here; every meaning refuses it before (R23). -/
def State.setReg (s : State) (r : Reg) (v : Word) : State :=
  if h : r.toNat < 15 then { s with regs := s.regs.set r.toNat v } else s

/-- `B`, bit 7 of the Control Register: set for big endian (R28). -/
def State.big (s : State) : Bool := bit s.control 7

/-! ### Memory -/

/-- The region holds the byte address. -/
def Region.holds (g : Region) (a : Word) : Bool := decide (g.base ≤ a.toNat) && decide (a.toNat < g.base + g.size)

/-- `Mapped` of the word that contains `addr` (R56 to R61, R70). -/
def State.mapped (s : State) (addr : Word) : Bool := s.platform.mapped.any (Region.holds · (align addr))

/-- The word that contains `addr` is in `TEXT` (R59 to R61, R75). -/
def State.inText (s : State) (addr : Word) : Bool := s.platform.text.any (Region.holds · (align addr))

/-- `W[addr & 0xFFFFFFFC]` (R56). -/
def State.word (s : State) (addr : Word) : Word := s.mem.word (align addr)

/-- The half word at `addr` under the byte order in effect (R57). -/
def State.half (s : State) (addr : Word) : Half := s.mem.half s.big addr

/-- The byte at `addr` under the byte order in effect (R58). -/
def State.byte (s : State) (addr : Word) : Byte := s.mem.byte s.big addr

/-- `W[addr & 0xFFFFFFFC] <- v` (R59). -/
def State.setWord (s : State) (addr v : Word) : State := { s with mem := s.mem.putWord (align addr) v }

/-- The half word at `addr`, under the byte order in effect (R60). -/
def State.setHalf (s : State) (addr : Word) (v : Half) : State := { s with mem := s.mem.putHalf s.big addr v }

/-- The byte at `addr`, under the byte order in effect (R61). -/
def State.setByte (s : State) (addr : Word) (v : Byte) : State := { s with mem := s.mem.putByte s.big addr v }

/-! ### How an instruction ends -/

/-- Taking an exception: every abnormal outcome is terminal. No state changes, no register is saved, no mode is entered
and no handler runs, so there is no return either (R10, R221, D20; log 13). -/
def raise (f : Fault) : Out := .fault f

/-- `pc <- pc + 4`, or the end of the address space (R24). -/
def advance (s : State) : Out :=
  if s.pc = 0xFFFFFFFC#32 then raise (.unpredictable .pcWrap) else .next { s with pc := s.pc + 4#32 }

/-- An instruction completes: the `BSettle` countdown after its own work, then `pc <- pc + 4` (R24, R34). -/
def complete (s : State) : Out := advance { s with bSettle := s.bSettle - 1 }

/-- What every instruction does first: register 15 in a used field is refused whatever the condition (R23, R93, R110);
a failed condition only completes (R93); else the instruction's own rule runs, on its word and the state. -/
def perform (i : Instr) (rule : Word → State → Out) (s : State) : Out :=
  if i.wellFormed then
    if conditionPassed i.cond s.cpsr then rule (encode i) s else complete s
  else .refused (.encoding .r15Operand (encode i))

/-- Coprocessor 15 is reached in a privileged mode only; User mode takes the Undefined Instruction exception
(R139, R223; log 14). -/
def privileged (word : Word) (s : State) (k : Out) : Out :=
  if s.cpsr.mode.privileged then k else raise (.undefinedInstruction word)

/-- The check of the operand combinations (R101, R104). -/
def checked (word : Word) (t : Transfer) (k : Out) : Out :=
  match t.clash word with
  | some u => raise (.unpredictable u)
  | none => k

/-- The check of `SWP` and `SWPB`: the base differs from both other registers (R105). -/
def swapChecked (word : Word) (rn rd rm : Reg) (k : Out) : Out :=
  if rn = rd ∨ rn = rm then raise (.unpredictable (.swapBase word)) else k

/-- A sub-word access needs a settled `B` (R34). -/
def settled (s : State) (k : Out) : Out :=
  if 0 < s.bSettle then raise (.unpredictable .bNotYetInEffect) else k

/-- A load's access: the word must be mapped (R56 to R58). -/
def loading (s : State) (addr : Word) (k : Out) : Out := if s.mapped addr then k else raise (.dataAbort addr)

/-- A store's access: the word must be mapped, and not program text (R59 to R61, R75). -/
def storing (s : State) (addr : Word) (k : Out) : Out :=
  if s.mapped addr then (if s.inText addr then .refused (.storeIntoText addr) else k) else raise (.dataAbort addr)

/-- `SubwordDone <- 1` (R33). -/
def State.didSubword (s : State) : State := { s with subwordDone := true }

/-- The next free value has been used (log 9). -/
def State.draw (s : State) : State := { s with drawn := s.drawn + 1 }

/-! ### Transfers -/

/-- The operands of a load or store with a 12-bit offset (R98, R99). -/
def immTransfer (x : Index) (u : Bool) (rn rd : Reg) (offset12 : BitVec 12) : Transfer :=
  ⟨rn, rd, none, x, u, offset12Word offset12⟩

/-- The operands of a load or store with a scaled register offset (R98 to R100). -/
def regTransfer (s : State) (x : Index) (u : Bool) (rn rd : Reg) (n : BitVec 5) (sh : Shift) (rm : Reg) : Transfer :=
  ⟨rn, rd, some rm, x, u, shiftOffset (s.reg rm) sh n s.cpsr.c⟩

/-- The operands of a half-word transfer with an immediate offset (R102, R103). -/
def halfImmTransfer (x : Index) (u : Bool) (rn rd : Reg) (immedH immedL : BitVec 4) : Transfer :=
  ⟨rn, rd, none, x, u, splitOffset immedH immedL⟩

/-- The operands of a half-word transfer with a register offset (R102, R103). -/
def halfRegTransfer (s : State) (x : Index) (u : Bool) (rn rd rm : Reg) : Transfer := ⟨rn, rd, some rm, x, u, s.reg rm⟩

/-- The indexing of a half-word transfer; `P = 0` with `W = 1` is UNPREDICTABLE (R103). -/
def halfIndexed (word : Word) (p w : Bool) (k : Index → Out) : Out :=
  match Index.ofPW p w with
  | some x => k x
  | none => raise (.unpredictable (.halfP0W1 word))

/-- The address a load or store accesses (R99, R103). -/
def Transfer.addr (t : Transfer) (s : State) : Word := accessAddress t.index t.up (s.reg t.rn) t.off

/-- `x[Rn] <- wb` where the form writes back: the computed address, not a truncated one (R99, R103, R161). -/
def Transfer.writeBack (t : Transfer) (s : State) : State :=
  if t.index.writesBack then s.setReg t.rn (indexed t.up (s.reg t.rn) t.off) else s

/-- The rotation of a word load: 8 times `addr[1:0]` (R160, R162). -/
def loadRotation (addr : Word) : Nat := 8 * (field addr 0 2).toNat

/-- `LDR` (R160). -/
def loadWord (t : Transfer) (word : Word) (s : State) : Out :=
  checked word t (loading s (t.addr s)
    (complete ((t.writeBack s).setReg t.rd (ror32 (s.word (t.addr s)) (loadRotation (t.addr s))))))

/-- `STR` (R161). -/
def storeWord (t : Transfer) (word : Word) (s : State) : Out :=
  checked word t (storing s (t.addr s) (complete (t.writeBack (s.setWord (t.addr s) (s.reg t.rd)))))

/-- `LDRB` (R200). -/
def loadByte (t : Transfer) (word : Word) (s : State) : Out :=
  checked word t (settled s (loading s (t.addr s)
    (complete ((t.writeBack s).setReg t.rd ((s.byte (t.addr s)).setWidth 32)).didSubword)))

/-- `STRB` (R201). -/
def storeByte (t : Transfer) (word : Word) (s : State) : Out :=
  checked word t (settled s (storing s (t.addr s)
    (complete (t.writeBack (s.setByte (t.addr s) ((s.reg t.rd).setWidth 8))).didSubword)))

/-- `LDRH` (R180). At an odd address all 32 bits loaded are a free value and the rest happens as normal (U2, C7;
log 7). -/
def loadHalf (t : Transfer) (word : Word) (s : State) : Out :=
  checked word t (settled s (loading s (t.addr s)
    (if bit (t.addr s) 0 then
      complete ((t.writeBack s).setReg t.rd (Config.freeWord s.drawn)).draw.didSubword
    else
      complete ((t.writeBack s).setReg t.rd ((s.half (t.addr s)).setWidth 32)).didSubword)))

/-- `STRH` (R181). At an odd address the whole word that contains the address becomes a free value and the rest happens
as normal (U3, C9; log 8). -/
def storeHalf (t : Transfer) (word : Word) (s : State) : Out :=
  checked word t (settled s (storing s (t.addr s)
    (if bit (t.addr s) 0 then
      complete (t.writeBack (s.setWord (t.addr s) (Config.freeWord s.drawn))).draw.didSubword
    else
      complete (t.writeBack (s.setHalf (t.addr s) ((s.reg t.rd).setWidth 16))).didSubword)))

/-- The address of a swap: the base register, with no offset (R105). -/
def swapAddr (s : State) (rn : Reg) : Word := s.reg rn

/-- `SWP` (R162): the load comes first, and the stored value is not rotated. -/
def swapWord (rn rd rm : Reg) (word : Word) (s : State) : Out :=
  swapChecked word rn rd rm (storing s (swapAddr s rn)
    (complete ((s.setWord (swapAddr s rn) (s.reg rm)).setReg rd
      (ror32 (s.word (swapAddr s rn)) (loadRotation (swapAddr s rn))))))

/-- `SWPB` (R202): bits [31:8] of the destination are zero (C3, D13). -/
def swapByte (rn rd rm : Reg) (word : Word) (s : State) : Out :=
  swapChecked word rn rd rm (settled s (storing s (swapAddr s rn)
    (complete ((s.setByte (swapAddr s rn) ((s.reg rm).setWidth 8)).setReg rd
      ((s.byte (swapAddr s rn)).setWidth 32)).didSubword)))

/-! ### Fetch -/

/-- The instruction fetch: `W[pc]`, for a word-aligned and mapped `pc` (R15, R24, R56, R66). -/
def fetch (s : State) : Option Word := if field s.pc 0 2 = 0b00#2 ∧ s.mapped s.pc then some (s.word s.pc) else none

end Sys2Proof.Machine
end

