-- ==== Sys2Proof/Machine/ByteAccess.lean ====
section
/-! DEFINITION. The byte accesses `LDRB`, `STRB` and `SWPB` (spec/43_byte_access.md). -/

namespace Sys2Proof.Machine

/-- `LDRB Rd, [Rn, #off]`, offset or pre-indexed (R200). -/
def execLdrbImm (cond : Cond) (u w : Bool) (rn rd : Reg) (offset12 : BitVec 12) (s : State) : Out :=
  perform (.ldrbImm cond u w rn rd offset12) (loadByte (immTransfer (.ofW w) u rn rd offset12)) s

/-- `LDRB Rd, [Rn], #off`, post-indexed (R200). -/
def execLdrbImmPost (cond : Cond) (u : Bool) (rn rd : Reg) (offset12 : BitVec 12) (s : State) : Out :=
  perform (.ldrbImmPost cond u rn rd offset12) (loadByte (immTransfer .postIndexed u rn rd offset12)) s

/-- `LDRB Rd, [Rn, Rm, <shift> #n]`, offset or pre-indexed (R200). -/
def execLdrbReg (cond : Cond) (u w : Bool) (rn rd : Reg) (shiftImm : BitVec 5) (shift : Shift) (rm : Reg)
    (s : State) : Out :=
  perform (.ldrbReg cond u w rn rd shiftImm shift rm)
    (fun word t => loadByte (regTransfer t (.ofW w) u rn rd shiftImm shift rm) word t) s

/-- `LDRB Rd, [Rn], Rm, <shift> #n`, post-indexed (R200). -/
def execLdrbRegPost (cond : Cond) (u : Bool) (rn rd : Reg) (shiftImm : BitVec 5) (shift : Shift) (rm : Reg)
    (s : State) : Out :=
  perform (.ldrbRegPost cond u rn rd shiftImm shift rm)
    (fun word t => loadByte (regTransfer t .postIndexed u rn rd shiftImm shift rm) word t) s

/-- `STRB Rd, [Rn, #off]`, offset or pre-indexed (R201). -/
def execStrbImm (cond : Cond) (u w : Bool) (rn rd : Reg) (offset12 : BitVec 12) (s : State) : Out :=
  perform (.strbImm cond u w rn rd offset12) (storeByte (immTransfer (.ofW w) u rn rd offset12)) s

/-- `STRB Rd, [Rn], #off`, post-indexed (R201). -/
def execStrbImmPost (cond : Cond) (u : Bool) (rn rd : Reg) (offset12 : BitVec 12) (s : State) : Out :=
  perform (.strbImmPost cond u rn rd offset12) (storeByte (immTransfer .postIndexed u rn rd offset12)) s

/-- `STRB Rd, [Rn, Rm, <shift> #n]`, offset or pre-indexed (R201). -/
def execStrbReg (cond : Cond) (u w : Bool) (rn rd : Reg) (shiftImm : BitVec 5) (shift : Shift) (rm : Reg)
    (s : State) : Out :=
  perform (.strbReg cond u w rn rd shiftImm shift rm)
    (fun word t => storeByte (regTransfer t (.ofW w) u rn rd shiftImm shift rm) word t) s

/-- `STRB Rd, [Rn], Rm, <shift> #n`, post-indexed (R201). -/
def execStrbRegPost (cond : Cond) (u : Bool) (rn rd : Reg) (shiftImm : BitVec 5) (shift : Shift) (rm : Reg)
    (s : State) : Out :=
  perform (.strbRegPost cond u rn rd shiftImm shift rm)
    (fun word t => storeByte (regTransfer t .postIndexed u rn rd shiftImm shift rm) word t) s

/-- `SWPB Rd, Rm, [Rn]` (R202). -/
def execSwpb (cond : Cond) (rn rd rm : Reg) (s : State) : Out := perform (.swpb cond rn rd rm) (swapByte rn rd rm) s

end Sys2Proof.Machine
end

