-- ==== Sys2Proof/Machine/Endian.lean ====
section
/-! DEFINITION. The endian configuration instructions `ORR`, `MRC` and `MCR` (spec/40_endian_config.md). -/

namespace Sys2Proof.Machine

/-- The effect of `ORR` on its shifter operand and carry-out: `x[Rd]`, and the flags when `S = 1` (R135). -/
def orr (s : Bool) (rn rd : Reg) (operand : Word × Bool) (st : State) : Out :=
  let r := st.reg rn ||| operand.1
  complete ({ st with cpsr := if s then st.cpsr.withResult r operand.2 else st.cpsr }.setReg rd r)

/-- `ORR{cond}{S} Rd, Rn, #imm` (R95, R135). -/
def execOrrImm (cond : Cond) (s : Bool) (rn rd : Reg) (rotateImm : BitVec 4) (immed8 : BitVec 8) (st : State) : Out :=
  perform (.orrImm cond s rn rd rotateImm immed8)
    (fun _ t => orr s rn rd (immediateOperand rotateImm immed8 t.cpsr.c) t) st

/-- `ORR{cond}{S} Rd, Rn, Rm, <shift> #n` (R96, R135). -/
def execOrrShiftImm (cond : Cond) (s : Bool) (rn rd : Reg) (shiftImm : BitVec 5) (shift : Shift) (rm : Reg)
    (st : State) : Out :=
  perform (.orrShiftImm cond s rn rd shiftImm shift rm)
    (fun _ t => orr s rn rd (shiftByImmediate (t.reg rm) shift shiftImm t.cpsr.c) t) st

/-- `ORR{cond}{S} Rd, Rn, Rm, <shift> Rs`: only `x[Rs][7:0]` counts (R97, R135). -/
def execOrrShiftReg (cond : Cond) (s : Bool) (rn rd rs : Reg) (shift : Shift) (rm : Reg) (st : State) : Out :=
  perform (.orrShiftReg cond s rn rd rs shift rm)
    (fun _ t => orr s rn rd (shiftByRegister (t.reg rm) shift ((t.reg rs).setWidth 8) t.cpsr.c) t) st

/-- `MRC p15, 0, Rd, c1, c0, 0`: all 32 bits of the Control Register (R130). -/
def execMrc (cond : Cond) (rd : Reg) (st : State) : Out :=
  perform (.mrc cond rd) (fun word t => privileged word t (complete (t.setReg rd t.control))) st

/-- Bits 31:8 or 6:0 of two Control Register values differ (R133). -/
def otherBitsDiffer (v old : Word) : Bool := field v 8 24 != field old 8 24 || field v 0 7 != field old 0 7

/-- The effect of the `MCR` encoded as `word` on the value `v` (R132): only bit 7 may change (R133), not after a
sub-word access (R134), and a change of it starts the `BSettle` count, which this instruction itself does not step
(R34). -/
def writeControl (v word : Word) (t : State) : Out :=
  if otherBitsDiffer v t.control then .refused (.controlBitOtherThanB word)
  else if bit v 7 != bit t.control 7 then
    (if t.subwordDone then raise (.unpredictable .bChangedAfterSubword)
     else advance { t with control := v, bSettle := t.platform.bEffectDelay })
  else complete { t with control := v }

/-- `MCR p15, 0, Rd, c1, c0, 0` (R132 to R134). -/
def execMcr (cond : Cond) (rd : Reg) (st : State) : Out :=
  perform (.mcr cond rd) (fun word t => privileged word t (writeControl (t.reg rd) word t)) st

end Sys2Proof.Machine
end

