-- ==== Sys2Proof/Machine/HalfAccess.lean ====
section
/-! DEFINITION. The half-word accesses `LDRH` and `STRH` (spec/42_halfword_access.md). -/

namespace Sys2Proof.Machine

/-- `LDRH Rd, <address>` with an 8-bit offset (R180). -/
def execLdrhImm (cond : Cond) (p u w : Bool) (rn rd : Reg) (immedH immedL : BitVec 4) (s : State) : Out :=
  perform (.ldrhImm cond p u w rn rd immedH immedL)
    (fun word t => halfIndexed word p w fun x => loadHalf (halfImmTransfer x u rn rd immedH immedL) word t) s

/-- `LDRH Rd, <address>` with a register offset (R180). -/
def execLdrhReg (cond : Cond) (p u w : Bool) (rn rd rm : Reg) (s : State) : Out :=
  perform (.ldrhReg cond p u w rn rd rm)
    (fun word t => halfIndexed word p w fun x => loadHalf (halfRegTransfer t x u rn rd rm) word t) s

/-- `STRH Rd, <address>` with an 8-bit offset (R181). -/
def execStrhImm (cond : Cond) (p u w : Bool) (rn rd : Reg) (immedH immedL : BitVec 4) (s : State) : Out :=
  perform (.strhImm cond p u w rn rd immedH immedL)
    (fun word t => halfIndexed word p w fun x => storeHalf (halfImmTransfer x u rn rd immedH immedL) word t) s

/-- `STRH Rd, <address>` with a register offset (R181). -/
def execStrhReg (cond : Cond) (p u w : Bool) (rn rd rm : Reg) (s : State) : Out :=
  perform (.strhReg cond p u w rn rd rm)
    (fun word t => halfIndexed word p w fun x => storeHalf (halfRegTransfer t x u rn rd rm) word t) s

end Sys2Proof.Machine
end

