-- ==== Sys2Proof/Machine/WordAccess.lean ====
section
/-! DEFINITION. The word accesses `LDR`, `STR` and `SWP` (spec/41_word_access.md). -/

namespace Sys2Proof.Machine

/-- `LDR Rd, [Rn, #off]`, offset or pre-indexed (R160). -/
def execLdrImm (cond : Cond) (u w : Bool) (rn rd : Reg) (offset12 : BitVec 12) (s : State) : Out :=
  perform (.ldrImm cond u w rn rd offset12) (loadWord (immTransfer (.ofW w) u rn rd offset12)) s

/-- `LDR Rd, [Rn], #off`, post-indexed (R160). -/
def execLdrImmPost (cond : Cond) (u : Bool) (rn rd : Reg) (offset12 : BitVec 12) (s : State) : Out :=
  perform (.ldrImmPost cond u rn rd offset12) (loadWord (immTransfer .postIndexed u rn rd offset12)) s

/-- `LDR Rd, [Rn, Rm, <shift> #n]`, offset or pre-indexed (R160). -/
def execLdrReg (cond : Cond) (u w : Bool) (rn rd : Reg) (shiftImm : BitVec 5) (shift : Shift) (rm : Reg)
    (s : State) : Out :=
  perform (.ldrReg cond u w rn rd shiftImm shift rm)
    (fun word t => loadWord (regTransfer t (.ofW w) u rn rd shiftImm shift rm) word t) s

/-- `LDR Rd, [Rn], Rm, <shift> #n`, post-indexed (R160). -/
def execLdrRegPost (cond : Cond) (u : Bool) (rn rd : Reg) (shiftImm : BitVec 5) (shift : Shift) (rm : Reg)
    (s : State) : Out :=
  perform (.ldrRegPost cond u rn rd shiftImm shift rm)
    (fun word t => loadWord (regTransfer t .postIndexed u rn rd shiftImm shift rm) word t) s

/-- `STR Rd, [Rn, #off]`, offset or pre-indexed (R161). -/
def execStrImm (cond : Cond) (u w : Bool) (rn rd : Reg) (offset12 : BitVec 12) (s : State) : Out :=
  perform (.strImm cond u w rn rd offset12) (storeWord (immTransfer (.ofW w) u rn rd offset12)) s

/-- `STR Rd, [Rn], #off`, post-indexed (R161). -/
def execStrImmPost (cond : Cond) (u : Bool) (rn rd : Reg) (offset12 : BitVec 12) (s : State) : Out :=
  perform (.strImmPost cond u rn rd offset12) (storeWord (immTransfer .postIndexed u rn rd offset12)) s

/-- `STR Rd, [Rn, Rm, <shift> #n]`, offset or pre-indexed (R161). -/
def execStrReg (cond : Cond) (u w : Bool) (rn rd : Reg) (shiftImm : BitVec 5) (shift : Shift) (rm : Reg)
    (s : State) : Out :=
  perform (.strReg cond u w rn rd shiftImm shift rm)
    (fun word t => storeWord (regTransfer t (.ofW w) u rn rd shiftImm shift rm) word t) s

/-- `STR Rd, [Rn], Rm, <shift> #n`, post-indexed (R161). -/
def execStrRegPost (cond : Cond) (u : Bool) (rn rd : Reg) (shiftImm : BitVec 5) (shift : Shift) (rm : Reg)
    (s : State) : Out :=
  perform (.strRegPost cond u rn rd shiftImm shift rm)
    (fun word t => storeWord (regTransfer t .postIndexed u rn rd shiftImm shift rm) word t) s

/-- `SWP Rd, Rm, [Rn]` (R162). -/
def execSwp (cond : Cond) (rn rd rm : Reg) (s : State) : Out := perform (.swp cond rn rd rm) (swapWord rn rd rm) s

end Sys2Proof.Machine
end

