-- ==== Sys2Proof/Machine/Dispatch.lean ====
section
/-! DEFINITION. One arm per instruction, each the call of its meaning. -/

namespace Sys2Proof.Machine

/-- Executing one decoded instruction. -/
def exec (i : Instr) (s : State) : Host.Outcome State Fault Refusal :=
  match i with
  | .orrImm cond setFlags rn rd rotateImm immed8 => Sys2Proof.Machine.execOrrImm cond setFlags rn rd rotateImm immed8 s
  | .orrShiftImm cond setFlags rn rd shiftImm shift rm => Sys2Proof.Machine.execOrrShiftImm cond setFlags rn rd shiftImm shift rm s
  | .orrShiftReg cond setFlags rn rd rs shift rm => Sys2Proof.Machine.execOrrShiftReg cond setFlags rn rd rs shift rm s
  | .ldrImm cond u w rn rd offset12 => Sys2Proof.Machine.execLdrImm cond u w rn rd offset12 s
  | .ldrImmPost cond u rn rd offset12 => Sys2Proof.Machine.execLdrImmPost cond u rn rd offset12 s
  | .ldrReg cond u w rn rd shiftImm shift rm => Sys2Proof.Machine.execLdrReg cond u w rn rd shiftImm shift rm s
  | .ldrRegPost cond u rn rd shiftImm shift rm => Sys2Proof.Machine.execLdrRegPost cond u rn rd shiftImm shift rm s
  | .strImm cond u w rn rd offset12 => Sys2Proof.Machine.execStrImm cond u w rn rd offset12 s
  | .strImmPost cond u rn rd offset12 => Sys2Proof.Machine.execStrImmPost cond u rn rd offset12 s
  | .strReg cond u w rn rd shiftImm shift rm => Sys2Proof.Machine.execStrReg cond u w rn rd shiftImm shift rm s
  | .strRegPost cond u rn rd shiftImm shift rm => Sys2Proof.Machine.execStrRegPost cond u rn rd shiftImm shift rm s
  | .ldrbImm cond u w rn rd offset12 => Sys2Proof.Machine.execLdrbImm cond u w rn rd offset12 s
  | .ldrbImmPost cond u rn rd offset12 => Sys2Proof.Machine.execLdrbImmPost cond u rn rd offset12 s
  | .ldrbReg cond u w rn rd shiftImm shift rm => Sys2Proof.Machine.execLdrbReg cond u w rn rd shiftImm shift rm s
  | .ldrbRegPost cond u rn rd shiftImm shift rm => Sys2Proof.Machine.execLdrbRegPost cond u rn rd shiftImm shift rm s
  | .strbImm cond u w rn rd offset12 => Sys2Proof.Machine.execStrbImm cond u w rn rd offset12 s
  | .strbImmPost cond u rn rd offset12 => Sys2Proof.Machine.execStrbImmPost cond u rn rd offset12 s
  | .strbReg cond u w rn rd shiftImm shift rm => Sys2Proof.Machine.execStrbReg cond u w rn rd shiftImm shift rm s
  | .strbRegPost cond u rn rd shiftImm shift rm => Sys2Proof.Machine.execStrbRegPost cond u rn rd shiftImm shift rm s
  | .ldrhImm cond p u w rn rd immedH immedL => Sys2Proof.Machine.execLdrhImm cond p u w rn rd immedH immedL s
  | .ldrhReg cond p u w rn rd rm => Sys2Proof.Machine.execLdrhReg cond p u w rn rd rm s
  | .strhImm cond p u w rn rd immedH immedL => Sys2Proof.Machine.execStrhImm cond p u w rn rd immedH immedL s
  | .strhReg cond p u w rn rd rm => Sys2Proof.Machine.execStrhReg cond p u w rn rd rm s
  | .swp cond rn rd rm => Sys2Proof.Machine.execSwp cond rn rd rm s
  | .swpb cond rn rd rm => Sys2Proof.Machine.execSwpb cond rn rd rm s
  | .mrc cond rd => Sys2Proof.Machine.execMrc cond rd s
  | .mcr cond rd => Sys2Proof.Machine.execMcr cond rd s

end Sys2Proof.Machine
end

