-- ==== Sys2Proof/Machine/Step.lean ====
section
/-! DEFINITION. One step of the machine (spec/00_scope.md R15). -/

namespace Sys2Proof.Machine

/-- One step: over if `pc` is in `HALT`; else fetch `W[pc]`, decode it and perform it (R15). Thumb state is out of
scope (R117). -/
def step (s : State) : Host.Outcome State Fault Refusal :=
  if s.pc ∈ s.platform.halt then raise .runOver
  else if s.cpsr.t then .refused .thumbState
  else
    match fetch s with
    | none => raise (.prefetchAbort s.pc)
    | some word =>
      match decode word with
      | .instr i => exec i s
      | .refused why => .refused (.encoding why word)
      | .undefined => raise (.undefinedInstruction word)

/-- The state with an instruction word stored at `pc`, where the next step fetches it (log 22). -/
def State.withFetchWord (s : State) (nbits w : Nat) : State := s.setWord s.pc (BitVec.ofNat 32 (w % 2 ^ nbits))

end Sys2Proof.Machine
end

