-- ==== Sys2Proof/Safety.lean ====
section
/-! DEFINITION. The terms the statements use: when an instruction is ready to run its own rule, what it leaves in the
state when it completes, which registers and bytes it writes (spec/10_state.md R22, spec/30_encoding.md R99, R103), and
the invariant of the machine. -/

namespace Sys2Proof.Machine

/-! ### Completing -/

/-- The state after an instruction completes that left `s` (R24, R34). -/
def State.done (s : State) : State := { s with pc := s.pc + 4#32, bSettle := s.bSettle - 1 }

/-- The instruction names no register 15, its condition passes, and it does not stand at the last word of the address
space (R23, R24, R93). -/
def Ready (i : Instr) (s : State) : Prop :=
  i.wellFormed = true ∧ conditionPassed i.cond s.cpsr = true ∧ s.pc ≠ 0xFFFFFFFC#32

/-- The outcome is a next state. -/
def Completes (o : Out) : Prop := ∃ s', o = .next s'

/-- An outcome with its next state changed by `f`; faults and refusals stay. -/
def Out.map (f : State → State) : Out → Out
  | .next s => .next (f s)
  | .fault r => .fault r
  | .refused r => .refused r

/-- Doing a second thing in the state the first one leaves. -/
def Out.andThen (o : Out) (k : State → Out) : Out :=
  match o with
  | .next s => k s
  | .fault r => .fault r
  | .refused r => .refused r

/-! ### Addresses and registers, transcribed from the rules -/

/-- `(addr, wb)` from `P`, `W`, `U`, the base and the offset: the table of R99 and R103. `P = 0` with `W = 1`
has neither; the forms that could have it are refused (R110) or fault (R103). -/
def effective (p w u : Bool) (base off : Word) : Word × Option Word :=
  let idx := if u then base + off else base - off
  match p, w with
  | true, false => (idx, none)
  | true, true => (idx, some idx)
  | false, _ => (base, some idx)

/-- `if wb present: x[Rn] <- wb`. -/
def State.writeBack (s : State) (rn : Reg) (wb : Option Word) : State :=
  match wb with
  | some v => s.setReg rn v
  | none => s

/-! ### What each instruction leaves, transcribed from its rule; `ea` is `(addr, wb)` -/

/-- `ORR` with its shifter operand and carry-out (R135). -/
def State.afterOrr (s : State) (setFlags : Bool) (rn rd : Reg) (operand : Word) (carry : Bool) : State :=
  let r := s.reg rn ||| operand
  let flags := { s.cpsr with n := bit r 31, z := r == 0#32, c := carry }
  ({ s with cpsr := if setFlags then flags else s.cpsr }.setReg rd r).done

/-- `LDR` (R160). -/
def State.afterLdr (s : State) (rn rd : Reg) (ea : Word × Option Word) : State :=
  ((s.writeBack rn ea.2).setReg rd (ror32 (s.word ea.1) (8 * (field ea.1 0 2).toNat))).done

/-- `STR` (R161). -/
def State.afterStr (s : State) (rn rd : Reg) (ea : Word × Option Word) : State :=
  ((s.setWord ea.1 (s.reg rd)).writeBack rn ea.2).done

/-- `LDRB` (R200). -/
def State.afterLdrb (s : State) (rn rd : Reg) (ea : Word × Option Word) : State :=
  ((s.writeBack rn ea.2).setReg rd ((s.byte ea.1).setWidth 32)).didSubword.done

/-- `STRB` (R201). -/
def State.afterStrb (s : State) (rn rd : Reg) (ea : Word × Option Word) : State :=
  ((s.setByte ea.1 (field (s.reg rd) 0 8)).writeBack rn ea.2).didSubword.done

/-- `LDRH` at an even address (R180). -/
def State.afterLdrh (s : State) (rn rd : Reg) (ea : Word × Option Word) : State :=
  ((s.writeBack rn ea.2).setReg rd ((s.half ea.1).setWidth 32)).didSubword.done

/-- `LDRH` at an odd address: the loaded value is free (U2). -/
def State.afterLdrhOdd (s : State) (rn rd : Reg) (ea : Word × Option Word) : State :=
  ((s.writeBack rn ea.2).setReg rd (Config.freeWord s.drawn)).draw.didSubword.done

/-- `STRH` at an even address (R181). -/
def State.afterStrh (s : State) (rn rd : Reg) (ea : Word × Option Word) : State :=
  ((s.setHalf ea.1 (field (s.reg rd) 0 16)).writeBack rn ea.2).didSubword.done

/-- `STRH` at an odd address: the word that contains the address is free (U3). -/
def State.afterStrhOdd (s : State) (rn : Reg) (ea : Word × Option Word) : State :=
  ((s.setWord ea.1 (Config.freeWord s.drawn)).writeBack rn ea.2).draw.didSubword.done

/-- A store or swap may write the word at the address: it is mapped and is not program text (R59 to R61). -/
def State.storable (s : State) (addr : Word) : Prop := s.mapped addr = true ∧ s.inText addr = false

end Sys2Proof.Machine

namespace Sys2Proof

open Machine

/-- The base, transferred and offset registers of a form that writes its base back (R99, R101, R103, R104). -/
def Instr.writebackRegs : Instr → Option (Reg × Reg × Option Reg)
  | .ldrImm _ _ w rn rd _ | .strImm _ _ w rn rd _ | .ldrbImm _ _ w rn rd _ | .strbImm _ _ w rn rd _ =>
    if w then some (rn, rd, none) else none
  | .ldrImmPost _ _ rn rd _ | .strImmPost _ _ rn rd _ | .ldrbImmPost _ _ rn rd _ | .strbImmPost _ _ rn rd _ =>
    some (rn, rd, none)
  | .ldrReg _ _ w rn rd _ _ rm | .strReg _ _ w rn rd _ _ rm | .ldrbReg _ _ w rn rd _ _ rm
  | .strbReg _ _ w rn rd _ _ rm => if w then some (rn, rd, some rm) else none
  | .ldrRegPost _ _ rn rd _ _ rm | .strRegPost _ _ rn rd _ _ rm | .ldrbRegPost _ _ rn rd _ _ rm
  | .strbRegPost _ _ rn rd _ _ rm => some (rn, rd, some rm)
  | .ldrhImm _ p _ w rn rd _ _ | .strhImm _ p _ w rn rd _ _ => if p == w then some (rn, rd, none) else none
  | .ldrhReg _ p _ w rn rd rm | .strhReg _ p _ w rn rd rm => if p == w then some (rn, rd, some rm) else none
  | .orrImm .. | .orrShiftImm .. | .orrShiftReg .. | .swp .. | .swpb .. | .mrc .. | .mcr .. => none

/-- The operand combination is none that R101, R103, R104 or R105 call UNPREDICTABLE. -/
def Instr.predictable (i : Instr) : Bool :=
  (match i.writebackRegs with
   | some (rn, rd, rm) => rn != rd && rm != some rn
   | none => true) &&
  match i with
  | .ldrhImm _ p _ w .. | .ldrhReg _ p _ w .. | .strhImm _ p _ w .. | .strhReg _ p _ w .. => p || !w
  | .swp _ rn rd rm | .swpb _ rn rd rm => rn != rd && rn != rm
  | .orrImm .. | .orrShiftImm .. | .orrShiftReg .. | .ldrImm .. | .ldrImmPost .. | .ldrReg .. | .ldrRegPost ..
  | .strImm .. | .strImmPost .. | .strReg .. | .strRegPost .. | .ldrbImm .. | .ldrbImmPost .. | .ldrbReg ..
  | .ldrbRegPost .. | .strbImm .. | .strbImmPost .. | .strbReg .. | .strbRegPost .. | .mrc .. | .mcr .. => true

/-- The address an instruction accesses in memory, by R99, R103 and R105; none for the others. -/
def Instr.access (i : Instr) (s : State) : Option Word :=
  match i with
  | .ldrImm _ u w rn _ off | .strImm _ u w rn _ off | .ldrbImm _ u w rn _ off | .strbImm _ u w rn _ off =>
    some (effective true w u (s.reg rn) (off.setWidth 32)).1
  | .ldrImmPost _ u rn _ off | .strImmPost _ u rn _ off | .ldrbImmPost _ u rn _ off | .strbImmPost _ u rn _ off =>
    some (effective false false u (s.reg rn) (off.setWidth 32)).1
  | .ldrReg _ u w rn _ n sh rm | .strReg _ u w rn _ n sh rm | .ldrbReg _ u w rn _ n sh rm
  | .strbReg _ u w rn _ n sh rm => some (effective true w u (s.reg rn) (shiftOffset (s.reg rm) sh n s.cpsr.c)).1
  | .ldrRegPost _ u rn _ n sh rm | .strRegPost _ u rn _ n sh rm | .ldrbRegPost _ u rn _ n sh rm
  | .strbRegPost _ u rn _ n sh rm => some (effective false false u (s.reg rn) (shiftOffset (s.reg rm) sh n s.cpsr.c)).1
  | .ldrhImm _ p u w rn _ h l | .strhImm _ p u w rn _ h l => some (effective p w u (s.reg rn) (splitOffset h l)).1
  | .ldrhReg _ p u w rn _ rm | .strhReg _ p u w rn _ rm => some (effective p w u (s.reg rn) (s.reg rm)).1
  | .swp _ rn _ _ | .swpb _ rn _ _ => some (s.reg rn)
  | .orrImm .. | .orrShiftImm .. | .orrShiftReg .. | .mrc .. | .mcr .. => none

/-- The instructions that store to memory (R22). -/
def Instr.stores : Instr → Bool
  | .strImm .. | .strImmPost .. | .strReg .. | .strRegPost .. | .strbImm .. | .strbImmPost .. | .strbReg ..
  | .strbRegPost .. | .strhImm .. | .strhReg .. | .swp .. | .swpb .. => true
  | .orrImm .. | .orrShiftImm .. | .orrShiftReg .. | .ldrImm .. | .ldrImmPost .. | .ldrReg .. | .ldrRegPost ..
  | .ldrbImm .. | .ldrbImmPost .. | .ldrbReg .. | .ldrbRegPost .. | .ldrhImm .. | .ldrhReg .. | .mrc .. | .mcr .. => false

/-- The sub-word accesses `LDRH`, `STRH`, `LDRB`, `STRB`, `SWPB` (R33). -/
def Instr.subword : Instr → Bool
  | .ldrbImm .. | .ldrbImmPost .. | .ldrbReg .. | .ldrbRegPost .. | .strbImm .. | .strbImmPost .. | .strbReg ..
  | .strbRegPost .. | .ldrhImm .. | .ldrhReg .. | .strhImm .. | .strhReg .. | .swpb .. => true
  | .orrImm .. | .orrShiftImm .. | .orrShiftReg .. | .ldrImm .. | .ldrImmPost .. | .ldrReg .. | .ldrRegPost ..
  | .strImm .. | .strImmPost .. | .strReg .. | .strRegPost .. | .swp .. | .mrc .. | .mcr .. => false

/-- The word accesses `LDR`, `STR`, `SWP` (R54). -/
def Instr.wordAccess : Instr → Bool
  | .ldrImm .. | .ldrImmPost .. | .ldrReg .. | .ldrRegPost .. | .strImm .. | .strImmPost .. | .strReg ..
  | .strRegPost .. | .swp .. => true
  | .orrImm .. | .orrShiftImm .. | .orrShiftReg .. | .ldrbImm .. | .ldrbImmPost .. | .ldrbReg .. | .ldrbRegPost ..
  | .strbImm .. | .strbImmPost .. | .strbReg .. | .strbRegPost .. | .ldrhImm .. | .ldrhReg .. | .strhImm ..
  | .strhReg .. | .swpb .. | .mrc .. | .mcr .. => false

/-- The half-word accesses `LDRH`, `STRH` (R63). -/
def Instr.halfAccess : Instr → Bool
  | .ldrhImm .. | .ldrhReg .. | .strhImm .. | .strhReg .. => true
  | .orrImm .. | .orrShiftImm .. | .orrShiftReg .. | .ldrImm .. | .ldrImmPost .. | .ldrReg .. | .ldrRegPost ..
  | .strImm .. | .strImmPost .. | .strReg .. | .strRegPost .. | .ldrbImm .. | .ldrbImmPost .. | .ldrbReg ..
  | .ldrbRegPost .. | .strbImm .. | .strbImmPost .. | .strbReg .. | .strbRegPost .. | .swp .. | .swpb .. | .mrc ..
  | .mcr .. => false

/-- The byte accesses `LDRB`, `STRB`, `SWPB` (R64). -/
def Instr.byteAccess (i : Instr) : Bool := i.subword && !i.halfAccess

/-- The register an instruction writes with its result: `Rd` of `ORR`, `MRC`, the loads and the swaps (R22). -/
def Instr.result : Instr → Option Reg
  | .orrImm _ _ _ rd _ _ | .orrShiftImm _ _ _ rd _ _ _ | .orrShiftReg _ _ _ rd _ _ _ => some rd
  | .ldrImm _ _ _ _ rd _ | .ldrImmPost _ _ _ rd _ | .ldrReg _ _ _ _ rd _ _ _ | .ldrRegPost _ _ _ rd _ _ _ => some rd
  | .ldrbImm _ _ _ _ rd _ | .ldrbImmPost _ _ _ rd _ | .ldrbReg _ _ _ _ rd _ _ _ | .ldrbRegPost _ _ _ rd _ _ _ => some rd
  | .ldrhImm _ _ _ _ _ rd _ _ | .ldrhReg _ _ _ _ _ rd _ => some rd
  | .swp _ _ rd _ | .swpb _ _ rd _ | .mrc _ rd => some rd
  | .strImm .. | .strImmPost .. | .strReg .. | .strRegPost .. | .strbImm .. | .strbImmPost .. | .strbReg ..
  | .strbRegPost .. | .strhImm .. | .strhReg .. | .mcr .. => none

/-- Every register an instruction may write: its result, and the base of a form that writes back (R22). -/
def Instr.writes (i : Instr) : List Reg := i.result.toList ++ (i.writebackRegs.map (·.1)).toList

/-- An `ORR` with `S = 1`, the only instruction that writes flags (R25). -/
def Instr.setsFlags : Instr → Bool
  | .orrImm _ s .. | .orrShiftImm _ s .. | .orrShiftReg _ s .. => s
  | .ldrImm .. | .ldrImmPost .. | .ldrReg .. | .ldrRegPost .. | .strImm .. | .strImmPost .. | .strReg ..
  | .strRegPost .. | .ldrbImm .. | .ldrbImmPost .. | .ldrbReg .. | .ldrbRegPost .. | .strbImm .. | .strbImmPost ..
  | .strbReg .. | .strbRegPost .. | .ldrhImm .. | .ldrhReg .. | .strhImm .. | .strhReg .. | .swp .. | .swpb ..
  | .mrc .. | .mcr .. => false

end Sys2Proof

namespace Sys2Proof.Machine

/-! ### The invariant -/

/-- What every step keeps: memory in its canonical form (R31, log 1), `pc` word aligned (R24), and `BSettle` no larger
than `B_EFFECT_DELAY` (R34). -/
def Invariant (s : State) : Prop :=
  s.mem.wf = true ∧ field s.pc 0 2 = 0b00#2 ∧ s.bSettle ≤ s.platform.bEffectDelay

/-- The launch premises: a privileged mode, ARM state, interrupts masked, the MMU and alignment checking off
(R26, R29, R231). -/
def Premises (s : State) : Prop :=
  s.cpsr.mode.privileged = true ∧ s.cpsr.t = false ∧ s.cpsr.i = true ∧ s.cpsr.f = true
    ∧ bit s.control 0 = false ∧ bit s.control 1 = false

end Sys2Proof.Machine
end

