-- ==== Sys2Proof/Certificates/Slice0/Obligations.lean ====
section
/-! DEFINITION. The statements for the provers. Each docstring names the rules of spec/ it comes from, or says that it
is the model's choice and names the log entry. -/

open Sys2Proof Sys2Proof.Machine

/-! ### Encoding -/

/-- Decoding the encoding of any instruction that names no register 15 gives that instruction back (R94 to R106,
R110). -/
def Obligations.DecodeOfEncode : Prop :=
  ∀ i : Instr, i.wellFormed = true → decode (encode i) = .instr i

/-- A word that decodes to an instruction is that instruction's encoding, and the instruction names no register 15:
decoding drops no bit (R94 to R106, R110, R111). -/
def Obligations.EncodeOfDecode : Prop :=
  ∀ (w : Word) (i : Instr), decode w = .instr i → encode i = w ∧ i.wellFormed = true

/-- `cond = 0b1111` is refused as the unconditional space, and so is the step that fetches such a word (R114). -/
def Obligations.UnconditionalSpaceRefused : Prop :=
  ∀ (s : State) (w : Word), field w 28 4 = 0b1111#4 →
    decode w = .refused .unconditionalSpace ∧
      (s.pc ∉ s.platform.halt → s.cpsr.t = false → fetch s = some w →
        step s = .refused (.encoding .unconditionalSpace w))

/-- Bits [27:25] = 0b011 with bit 4 set are the undefined space, and a step that fetches such a word ends with
`UndefinedInstruction` and that word (R113). -/
def Obligations.UndefinedSpaceFaults : Prop :=
  ∀ (s : State) (w : Word), field w 28 4 ≠ 0b1111#4 → field w 25 3 = 0b011#3 → bit w 4 = true →
    decode w = .undefined ∧
      (s.pc ∉ s.platform.halt → s.cpsr.t = false → fetch s = some w →
        step s = .fault (.undefinedInstruction w))

/-- Words written out from the formats decode to the instructions they stand for (R94, R98, R102, R105, R106). -/
def Obligations.SampleWordsDecode : Prop :=
  decode 0xE3800080#32 = .instr (.orrImm .al false 0 0 0 0x80) ∧
  decode 0xE1965405#32 = .instr (.orrShiftImm .al true 6 5 8 .lsl 5) ∧
  decode 0xE7121103#32 = .instr (.ldrReg .al false false 2 1 2 .lsl 3) ∧
  decode 0xE49A4004#32 = .instr (.ldrImmPost .al true 10 4 4) ∧
  decode 0xE5C94001#32 = .instr (.strbImm .al true false 9 4 1) ∧
  decode 0xE15A4FBF#32 = .instr (.ldrhImm .al true false false 10 4 0xF 0xF) ∧
  decode 0xE1432091#32 = .instr (.swpb .al 3 2 1) ∧
  decode 0xEE010F10#32 = .instr (.mcr .al 0)

/-- Register 15 in a used field is refused, whatever the condition and the state (R23). -/
def Obligations.RegisterFifteenRefused : Prop :=
  ∀ (i : Instr) (s : State), i.wellFormed = false →
    exec i s = .refused (.encoding .r15Operand (encode i)) ∧ ∀ w, decode w ≠ .instr i

/-! ### The step -/

/-- When the word at `pc` decodes to an instruction, the step is that instruction (R15, R66). -/
def Obligations.StepRunsDecoded : Prop :=
  ∀ (s : State) (i : Instr), s.pc ∉ s.platform.halt → s.cpsr.t = false → field s.pc 0 2 = 0b00#2 →
    s.mapped s.pc = true → decode (s.word s.pc) = .instr i → step s = exec i s

/-- A step that cannot fetch ends with `PrefetchAbort(pc)`; at an address in `HALT` the run is over (R15, R24, R56). -/
def Obligations.StepWithoutFetch : Prop :=
  ∀ s : State, (s.pc ∈ s.platform.halt → step s = .fault .runOver) ∧
    (s.pc ∉ s.platform.halt → s.cpsr.t = false → field s.pc 0 2 ≠ 0b00#2 ∨ s.mapped s.pc = false →
      step s = .fault (.prefetchAbort s.pc))

/-- A word the decoder refuses ends the step as refused, by class and word (R110, R112). -/
def Obligations.RefusedWordsRefuseTheStep : Prop :=
  ∀ (s : State) (why : RefusedClass), s.pc ∉ s.platform.halt → s.cpsr.t = false → field s.pc 0 2 = 0b00#2 →
    s.mapped s.pc = true → decode (s.word s.pc) = .refused why → step s = .refused (.encoding why (s.word s.pc))

/-- A word stored at `pc` is the word the next step fetches, in either byte order (the model's loading of a program,
log 22; R54, R66). -/
def Obligations.LoadedWordIsFetched : Prop :=
  ∀ (s : State) (w : Nat), field s.pc 0 2 = 0b00#2 → s.mapped s.pc = true →
    fetch (s.withFetchWord 32 w) = some (BitVec.ofNat 32 w)

/-- An instruction that completes moves `pc` on by 4; one at the last word of the address space that would complete
elsewhere ends with `UNPREDICTABLE(pc wrap)`; a step at a misaligned `pc` ends with `PrefetchAbort(pc)` (R24). -/
def Obligations.ProgramCounterAdvances : Prop :=
  (∀ (i : Instr) (s s' : State), exec i s = .next s' → s'.pc = s.pc + 4#32) ∧
  (∀ (i : Instr) (s : State) (q : Word), s.pc = 0xFFFFFFFC#32 → q ≠ 0xFFFFFFFC#32 →
    Completes (exec i { s with pc := q }) → exec i s = .fault (.unpredictable .pcWrap)) ∧
  (∀ s : State, s.pc ∉ s.platform.halt → s.cpsr.t = false → field s.pc 0 2 ≠ 0b00#2 →
    step s = .fault (.prefetchAbort s.pc))

/-- The condition codes and the tests of the flags they stand for (R92). -/
def Obligations.ConditionTable : Prop :=
  ∀ f : Cpsr,
    (Cond.ofCode 0b0000#4 = some .eq ∧ (conditionPassed .eq f = true ↔ f.z = true)) ∧
    (Cond.ofCode 0b0001#4 = some .ne ∧ (conditionPassed .ne f = true ↔ f.z = false)) ∧
    (Cond.ofCode 0b0010#4 = some .cs ∧ (conditionPassed .cs f = true ↔ f.c = true)) ∧
    (Cond.ofCode 0b0011#4 = some .cc ∧ (conditionPassed .cc f = true ↔ f.c = false)) ∧
    (Cond.ofCode 0b0100#4 = some .mi ∧ (conditionPassed .mi f = true ↔ f.n = true)) ∧
    (Cond.ofCode 0b0101#4 = some .pl ∧ (conditionPassed .pl f = true ↔ f.n = false)) ∧
    (Cond.ofCode 0b0110#4 = some .vs ∧ (conditionPassed .vs f = true ↔ f.v = true)) ∧
    (Cond.ofCode 0b0111#4 = some .vc ∧ (conditionPassed .vc f = true ↔ f.v = false)) ∧
    (Cond.ofCode 0b1000#4 = some .hi ∧ (conditionPassed .hi f = true ↔ f.c = true ∧ f.z = false)) ∧
    (Cond.ofCode 0b1001#4 = some .ls ∧ (conditionPassed .ls f = true ↔ f.c = false ∨ f.z = true)) ∧
    (Cond.ofCode 0b1010#4 = some .ge ∧ (conditionPassed .ge f = true ↔ f.n = f.v)) ∧
    (Cond.ofCode 0b1011#4 = some .lt ∧ (conditionPassed .lt f = true ↔ f.n ≠ f.v)) ∧
    (Cond.ofCode 0b1100#4 = some .gt ∧ (conditionPassed .gt f = true ↔ f.z = false ∧ f.n = f.v)) ∧
    (Cond.ofCode 0b1101#4 = some .le ∧ (conditionPassed .le f = true ↔ f.z = true ∨ f.n ≠ f.v)) ∧
    (Cond.ofCode 0b1110#4 = some .al ∧ conditionPassed .al f = true) ∧
    Cond.ofCode 0b1111#4 = none

/-- A failed condition does nothing but move `pc` on and count `BSettle` down, for every instruction (R93). -/
def Obligations.FailedConditionOnlyAdvances : Prop :=
  ∀ (i : Instr) (s : State), i.wellFormed = true → conditionPassed i.cond s.cpsr = false →
    s.pc ≠ 0xFFFFFFFC#32 → exec i s = .next { s with pc := s.pc + 4#32, bSettle := s.bSettle - 1 }

/-! ### Invariants and whole-machine rules -/

/-- Every step keeps the invariant: canonical memory, aligned `pc`, `BSettle` within `B_EFFECT_DELAY` (R24, R31,
R34). -/
def Obligations.StepKeepsInvariant : Prop := ∀ s s' : State, Invariant s → step s = .next s' → Invariant s'

/-- Every step keeps the launch premises: privileged mode, ARM state, interrupts masked, MMU and alignment checking
off (R26, R29, R231, R232). -/
def Obligations.StepKeepsPremises : Prop := ∀ s s' : State, Premises s → step s = .next s' → Premises s'

/-- After reset the byte order is little endian (R37). -/
def Obligations.ResetIsLittleEndian : Prop := State.reset.big = false

/-- After reset the invariant and the launch premises hold and the ghost fields are 0 (R33, R34, R38); the `pc`, the
memory, the mode, the masks and the Control Register are the values the model takes, log 2 and log 5. -/
def Obligations.ResetHasInvariant : Prop :=
  Invariant State.reset ∧ Premises State.reset ∧ State.reset.subwordDone = false ∧ State.reset.bSettle = 0

/-- No step changes a launch parameter, a status field other than `N`, `Z`, `C`, or a Control Register bit other than
bit 7 (R14, R26, R29). -/
def Obligations.StepChangesNoFixedState : Prop :=
  ∀ s s' : State, step s = .next s' →
    s'.platform = s.platform ∧
    s'.cpsr = { s.cpsr with n := s'.cpsr.n, z := s'.cpsr.z, c := s'.cpsr.c } ∧
    ∀ k, k ≠ 7 → bit s'.control k = bit s.control k

/-- Only `ORR` with `S = 1` changes the status register (R25). -/
def Obligations.OnlyOrrWithSWritesFlags : Prop :=
  ∀ (i : Instr) (s s' : State), exec i s = .next s' → s'.cpsr ≠ s.cpsr → i.setsFlags = true

/-- Only `MCR` changes the Control Register (R27, R132). -/
def Obligations.OnlyMcrWritesControl : Prop :=
  ∀ (i : Instr) (s s' : State), exec i s = .next s' → s'.control ≠ s.control → ∃ cond rd, i = .mcr cond rd

/-- `SubwordDone` is set by the sub-word accesses that complete with their condition passed, and by nothing else, and
nothing clears it (R33). -/
def Obligations.SubwordDoneTracksAccesses : Prop :=
  ∀ (i : Instr) (s s' : State), exec i s = .next s' →
    s'.subwordDone = (s.subwordDone || (i.subword && conditionPassed i.cond s.cpsr))

/-- Every instruction that completes counts `BSettle` down, but for the one that changes `B`, which sets it to
`B_EFFECT_DELAY` (R34). -/
def Obligations.SettleCountsDown : Prop :=
  ∀ (i : Instr) (s s' : State), exec i s = .next s' →
    s'.bSettle = if s'.big = s.big then s.bSettle - 1 else s.platform.bEffectDelay

/-! ### Frames -/

/-- Every instruction leaves unchanged every register but its `Rd`, where it has a result there, and its base `Rn`,
where the form writes it back (R22). -/
def Obligations.RegisterFrame : Prop :=
  ∀ (i : Instr) (s s' : State) (r : Reg), exec i s = .next s' → r ∉ i.writes → r ≠ 15#4 → s'.reg r = s.reg r

/-- The instructions that store nothing (`ORR`, `MRC`, `MCR`, `LDR`, `LDRH`, `LDRB`) leave every cell of memory
unchanged (R22, R67). -/
def Obligations.NonStoresLeaveMemory : Prop :=
  ∀ (i : Instr) (s s' : State), i.stores = false → exec i s = .next s' → ∀ a : Nat, s'.mem.get a = s.mem.get a

/-- `STR` and `SWP` change no byte outside the aligned word of the address they compute (R62, R67). -/
def Obligations.WordStoreFrame : Prop :=
  ∀ (i : Instr) (s s' : State) (a x : Word), (i.stores && i.wordAccess) = true → i.access s = some a →
    exec i s = .next s' → align x ≠ align a → s'.byte x = s.byte x

/-- `STRH` changes no byte but the two at the even address it computes; at an odd address it changes no byte outside
the aligned word that contains it (R60, R63, R181; the odd case is the model's choice among the spec's, log 8). -/
def Obligations.HalfStoreFrame : Prop :=
  ∀ (i : Instr) (s s' : State) (a x : Word), (i.stores && i.halfAccess) = true → i.access s = some a →
    exec i s = .next s' →
    (bit a 0 = false → x ≠ a → x ≠ a + 1#32 → s'.byte x = s.byte x) ∧
    (bit a 0 = true → align x ≠ align a → s'.byte x = s.byte x)

/-- `STRB` and `SWPB` change no byte but the one at the address they compute (R61, R201, R202). -/
def Obligations.ByteStoreFrame : Prop :=
  ∀ (i : Instr) (s s' : State) (a x : Word), (i.stores && i.byteAccess) = true → i.access s = some a →
    exec i s = .next s' → x ≠ a → s'.byte x = s.byte x

/-! ### Byte order and memory -/

/-- The big-endian lanes of a word: half words and bytes at the word-aligned `x` and the addresses after it, and the
byte at the lower address of a half word is the more significant (R51). -/
def Obligations.BigEndianLanes : Prop :=
  ∀ (s : State) (x : Word), s.big = true → align x = x →
    s.word x = s.mem.word x ∧ s.half x = field (s.word x) 16 16 ∧ s.half (x + 2#32) = field (s.word x) 0 16 ∧
    s.byte x = field (s.word x) 24 8 ∧ s.byte (x + 1#32) = field (s.word x) 16 8 ∧
    s.byte (x + 2#32) = field (s.word x) 8 8 ∧ s.byte (x + 3#32) = field (s.word x) 0 8 ∧
    ∀ h : Word, h = x ∨ h = x + 2#32 → s.half h = s.byte h ++ s.byte (h + 1#32)

/-- The little-endian lanes of a word, and the byte at the lower address of a half word is the less significant
(R52). -/
def Obligations.LittleEndianLanes : Prop :=
  ∀ (s : State) (x : Word), s.big = false → align x = x →
    s.word x = s.mem.word x ∧ s.half x = field (s.word x) 0 16 ∧ s.half (x + 2#32) = field (s.word x) 16 16 ∧
    s.byte x = field (s.word x) 0 8 ∧ s.byte (x + 1#32) = field (s.word x) 8 8 ∧
    s.byte (x + 2#32) = field (s.word x) 16 8 ∧ s.byte (x + 3#32) = field (s.word x) 24 8 ∧
    ∀ h : Word, h = x ∨ h = x + 2#32 → s.half h = s.byte (h + 1#32) ++ s.byte h

/-- `LDR`, `STR`, `SWP` and the fetch do the same for every value of the Control Register, and so of `B` (R54). -/
def Obligations.WordAccessIgnoresByteOrder : Prop :=
  ∀ (i : Instr) (s : State) (v : Word), i.wordAccess = true →
    exec i { s with control := v } = Out.map (fun t => { t with control := v }) (exec i s) ∧
    fetch { s with control := v } = fetch s

/-- The word read: an unmapped word aborts a load with the address and a fetch with `PrefetchAbort(pc)`, a mapped one
gives `W[addr]`, and the byte order does not matter (R56). -/
def Obligations.WordReadPrimitive : Prop :=
  ∀ (s : State) (addr : Word) (k : Out), field addr 0 2 = 0b00#2 →
    (s.mapped addr = false → loading s addr k = .fault (.dataAbort addr)) ∧
    (s.mapped addr = true → loading s addr k = k) ∧
    s.word addr = s.mem.word addr ∧
    (s.pc = addr → s.mapped addr = false → s.pc ∉ s.platform.halt → s.cpsr.t = false →
      step s = .fault (.prefetchAbort addr)) ∧
    (s.pc = addr → s.mapped addr = true → fetch s = some (s.mem.word addr)) ∧
    ∀ c, ({ s with control := c } : State).word addr = s.word addr ∧
      loading { s with control := c } addr k = loading s addr k ∧ fetch { s with control := c } = fetch s

/-- The half-word and byte reads: an unmapped word aborts with the address before truncation, a mapped one gives the
lane of the aligned word that the address and the byte order select (R57, R58). -/
def Obligations.SubwordReadPrimitives : Prop :=
  ∀ (s : State) (addr : Word) (k : Out),
    (s.mapped addr = false → loading s addr k = .fault (.dataAbort addr)) ∧
    (s.mapped addr = true → loading s addr k = k) ∧
    s.mapped addr = s.mapped (align addr) ∧
    (let w := s.mem.word (align addr)
     (bit addr 0 = false →
      s.half addr =
        if s.big then (if bit addr 1 then field w 0 16 else field w 16 16)
        else (if bit addr 1 then field w 16 16 else field w 0 16)) ∧
     s.byte addr =
      match s.big, bit addr 1, bit addr 0 with
      | true, false, false => field w 24 8
      | true, false, true => field w 16 8
      | true, true, false => field w 8 8
      | true, true, true => field w 0 8
      | false, false, false => field w 0 8
      | false, false, true => field w 8 8
      | false, true, false => field w 16 8
      | false, true, true => field w 24 8)

/-- The word write: an unmapped word aborts, program text is refused, else that word reads back as written, no other
word changes, and the byte order does not matter (R59). -/
def Obligations.WordWritePrimitive : Prop :=
  ∀ (s : State) (addr v : Word) (k : Out),
    (s.mapped addr = false → storing s addr k = .fault (.dataAbort addr)) ∧
    (s.mapped addr = true → s.inText addr = true → storing s addr k = .refused (.storeIntoText addr)) ∧
    (s.storable addr → storing s addr k = k) ∧
    (s.setWord addr v).word addr = v ∧
    (∀ x, align x ≠ align addr → (s.setWord addr v).word x = s.word x) ∧
    ∀ c, ({ s with control := c }.setWord addr v).mem = (s.setWord addr v).mem ∧
      storing { s with control := c } addr k = storing s addr k

/-- The half-word write: an unmapped word aborts, program text is refused, else one half word of the word is replaced
and the other, and every other word, unchanged (R60). -/
def Obligations.HalfWritePrimitive : Prop :=
  ∀ (s : State) (addr : Word) (v : Half) (k : Out), bit addr 0 = false →
    (s.mapped addr = false → storing s addr k = .fault (.dataAbort addr)) ∧
    (s.mapped addr = true → s.inText addr = true → storing s addr k = .refused (.storeIntoText addr)) ∧
    (s.storable addr → storing s addr k = k) ∧
    (s.setHalf addr v).word addr =
      (if s.big = bit addr 1 then place (field (s.word addr) 16 16) 16 ||| place v 0
       else place v 16 ||| place (field (s.word addr) 0 16) 0) ∧
    ∀ x, align x ≠ align addr → (s.setHalf addr v).word x = s.word x

/-- The byte write: an unmapped word aborts, program text is refused, else one byte lane of the word is replaced and
the other three, and every other word, unchanged (R61). -/
def Obligations.ByteWritePrimitive : Prop :=
  ∀ (s : State) (addr : Word) (v : Byte) (k : Out),
    (s.mapped addr = false → storing s addr k = .fault (.dataAbort addr)) ∧
    (s.mapped addr = true → s.inText addr = true → storing s addr k = .refused (.storeIntoText addr)) ∧
    (s.storable addr → storing s addr k = k) ∧
    (let lane := if s.big then 3 - (field addr 0 2).toNat else (field addr 0 2).toNat
     ∀ j, j < 4 → field ((s.setByte addr v).word addr) (8 * j) 8 = if j = lane then v else field (s.word addr) (8 * j) 8) ∧
    ∀ x, align x ≠ align addr → (s.setByte addr v).word x = s.word x

/-- A word stored at a word-aligned address reads back by bytes from its most significant end under big endian and from
its least significant end under little endian, as 1025 does (R55, R77). -/
def Obligations.StoredWordReadByBytes : Prop :=
  ∀ (s : State) (x v : Word), align x = x →
    let t := s.setWord x v
    (s.big = true → t.byte x = field v 24 8 ∧ t.byte (x + 1#32) = field v 16 8 ∧ t.byte (x + 2#32) = field v 8 8 ∧
      t.byte (x + 3#32) = field v 0 8) ∧
    (s.big = false → t.byte x = field v 0 8 ∧ t.byte (x + 1#32) = field v 8 8 ∧ t.byte (x + 2#32) = field v 16 8 ∧
      t.byte (x + 3#32) = field v 24 8)

/-! ### Operands -/

/-- The register-shifted-by-immediate operand and its carry-out, bit by bit, for every shift and amount (R96). -/
def Obligations.ShiftByImmediateTable : Prop :=
  ∀ (m : Word) (c : Bool),
    shiftByImmediate m .lsl 0 c = (m, c) ∧
    shiftByImmediate m .lsr 0 c = (0#32, bit m 31) ∧
    shiftByImmediate m .asr 0 c = ((if bit m 31 then 0xFFFFFFFF#32 else 0#32), bit m 31) ∧
    (bit (shiftByImmediate m .ror 0 c).1 31 = c ∧ (shiftByImmediate m .ror 0 c).2 = bit m 0 ∧
      ∀ k, k < 31 → bit (shiftByImmediate m .ror 0 c).1 k = bit m (k + 1)) ∧
    ∀ n : BitVec 5, n ≠ 0 →
      (shiftByImmediate m .lsl n c).2 = bit m (32 - n.toNat) ∧ (shiftByImmediate m .lsr n c).2 = bit m (n.toNat - 1) ∧
      (shiftByImmediate m .asr n c).2 = bit m (n.toNat - 1) ∧ (shiftByImmediate m .ror n c).2 = bit m (n.toNat - 1) ∧
      ∀ k, k < 32 →
        bit (shiftByImmediate m .lsl n c).1 k = (decide (n.toNat ≤ k) && bit m (k - n.toNat)) ∧
        bit (shiftByImmediate m .lsr n c).1 k = (decide (k + n.toNat < 32) && bit m (k + n.toNat)) ∧
        bit (shiftByImmediate m .asr n c).1 k = bit m (min (k + n.toNat) 31) ∧
        bit (shiftByImmediate m .ror n c).1 k = bit m ((k + n.toNat) % 32)

/-- The register-shifted-by-register operand and its carry-out: amount 0, amounts 1 to 31 as an immediate shift, and
amounts from 32 to 255 (R97). -/
def Obligations.ShiftByRegisterTable : Prop :=
  ∀ (m : Word) (c : Bool) (n : BitVec 8) (sh : Shift),
    (n = 0 → shiftByRegister m sh n c = (m, c)) ∧
    (n ≠ 0 → n.toNat < 32 → shiftByRegister m sh n c = shiftByImmediate m sh (n.setWidth 5) c) ∧
    (n = 32 → shiftByRegister m .lsl n c = (0#32, bit m 0) ∧ shiftByRegister m .lsr n c = (0#32, bit m 31)) ∧
    (32 < n.toNat → shiftByRegister m .lsl n c = (0#32, false) ∧ shiftByRegister m .lsr n c = (0#32, false)) ∧
    (32 ≤ n.toNat → shiftByRegister m .asr n c = ((if bit m 31 then 0xFFFFFFFF#32 else 0#32), bit m 31)) ∧
    (32 ≤ n.toNat → n.toNat % 32 = 0 → shiftByRegister m .ror n c = (m, bit m 31)) ∧
    (32 ≤ n.toNat → n.toNat % 32 ≠ 0 → shiftByRegister m .ror n c = shiftByImmediate m .ror (n.setWidth 5) c)

/-! ### Results of the configuration instructions -/

/-- `ORR` with an immediate completes with `x[Rn] | operand`, and with `S = 1` writes `N`, `Z` and the carry-out of the
rotated immediate (R95, R135). -/
def Obligations.OrrImmediateResult : Prop :=
  ∀ (cond : Cond) (f : Bool) (rn rd : Reg) (rot : BitVec 4) (imm : BitVec 8) (s : State),
    Ready (.orrImm cond f rn rd rot imm) s →
    let operand := ror32 (imm.setWidth 32) (2 * rot.toNat)
    exec (.orrImm cond f rn rd rot imm) s =
      .next (s.afterOrr f rn rd operand (if rot = 0 then s.cpsr.c else bit operand 31))

/-- `ORR` with a shifted register completes with `x[Rn] | operand`, and with `S = 1` writes `N`, `Z` and the shifter's
carry-out, for both register forms (R96, R97, R135). -/
def Obligations.OrrRegisterResult : Prop :=
  (∀ (cond : Cond) (f : Bool) (rn rd : Reg) (n : BitVec 5) (sh : Shift) (rm : Reg) (s : State),
    Ready (.orrShiftImm cond f rn rd n sh rm) s →
    let op := shiftByImmediate (s.reg rm) sh n s.cpsr.c
    exec (.orrShiftImm cond f rn rd n sh rm) s = .next (s.afterOrr f rn rd op.1 op.2)) ∧
  (∀ (cond : Cond) (f : Bool) (rn rd rs : Reg) (sh : Shift) (rm : Reg) (s : State),
    Ready (.orrShiftReg cond f rn rd rs sh rm) s →
    let op := shiftByRegister (s.reg rm) sh (field (s.reg rs) 0 8) s.cpsr.c
    exec (.orrShiftReg cond f rn rd rs sh rm) s = .next (s.afterOrr f rn rd op.1 op.2))

/-- `MRC` completes in a privileged mode with all 32 bits of the Control Register in `Rd` and changes nothing else but
`pc` and the `BSettle` count; `Rd = 15` is refused; the word is `cond : 1110 0001 0001 : Rd : 1111 0001 0000`
(R130, R231). -/
def Obligations.MrcResult : Prop :=
  ∀ (cond : Cond) (rd : Reg) (s : State),
    (Ready (.mrc cond rd) s → s.cpsr.mode ≠ .user → exec (.mrc cond rd) s = .next (s.setReg rd s.control).done) ∧
    (rd = 15#4 → exec (.mrc cond rd) s = .refused (.encoding .r15Operand (encode (.mrc cond rd)))) ∧
    encode (.mrc cond rd) = cond.code ++ 0b111000010001#12 ++ rd ++ 0b111100010000#12

/-- `MCR` of a value that differs from the Control Register in no bit but bit 7, in a privileged mode, completes: with
bit 7 the same it only advances; with bit 7 changed before any sub-word access it writes the register and sets
`BSettle` (R132, R34). -/
def Obligations.McrResult : Prop :=
  ∀ (cond : Cond) (rd : Reg) (s : State),
    Ready (.mcr cond rd) s → s.cpsr.mode ≠ .user → (∀ k, k ≠ 7 → bit (s.reg rd) k = bit s.control k) →
    (bit (s.reg rd) 7 = bit s.control 7 → exec (.mcr cond rd) s = .next s.done) ∧
    (bit (s.reg rd) 7 ≠ bit s.control 7 → s.subwordDone = false →
      exec (.mcr cond rd) s =
        .next { s with control := s.reg rd, bSettle := s.platform.bEffectDelay, pc := s.pc + 4#32 })

/-- `MCR` that would change another bit is refused, with the word; one that would change bit 7 after a sub-word access is
UNPREDICTABLE; `MRC` and `MCR` in User mode end with `UndefinedInstruction`, a mode no run from reset is in
(R133, R134; R139 and R223 as the model reads them, log 14). -/
def Obligations.CoprocessorStops : Prop :=
  (∀ (cond : Cond) (rd : Reg) (s : State), Ready (.mcr cond rd) s →
    (s.cpsr.mode = .user → exec (.mcr cond rd) s = .fault (.undefinedInstruction (encode (.mcr cond rd)))) ∧
    (s.cpsr.mode ≠ .user → (∃ k, k ≠ 7 ∧ bit (s.reg rd) k ≠ bit s.control k) →
      exec (.mcr cond rd) s = .refused (.controlBitOtherThanB (encode (.mcr cond rd)))) ∧
    (s.cpsr.mode ≠ .user → (∀ k, k ≠ 7 → bit (s.reg rd) k = bit s.control k) →
      bit (s.reg rd) 7 ≠ bit s.control 7 → s.subwordDone = true →
      exec (.mcr cond rd) s = .fault (.unpredictable .bChangedAfterSubword))) ∧
  (∀ (cond : Cond) (rd : Reg) (s : State), Ready (.mrc cond rd) s → s.cpsr.mode = .user →
    exec (.mrc cond rd) s = .fault (.undefinedInstruction (encode (.mrc cond rd))))

/-- The `BIGENDIAN` macro, `MRC`, `ORR`, `MCR` on `r0` one after another, sets bit 7 of the Control Register and leaves
the new value in `r0`, with no flag, memory or other register changed (R137). Where `B` is set already, `BSettle` is
unchanged if it is 0, and above 0 each of the three instructions counts it down as R34 says (log 34). -/
def Obligations.BigEndianMacroSetsB : Prop :=
  ∀ s : State, s.cpsr.mode ≠ .user → s.pc.toNat + 12 < 2 ^ 32 → (s.big = false → s.subwordDone = false) →
    Out.andThen (Out.andThen (exec (.mrc .al 0) s) (exec (.orrImm .al false 0 0 0 0x80))) (exec (.mcr .al 0)) =
      .next { s.setReg 0 (s.control ||| 0x80#32) with
        control := s.control ||| 0x80#32
        pc := s.pc + 12#32
        bSettle := if s.big then s.bSettle - 3 else s.platform.bEffectDelay }

/-! ### Results of the loads, stores and swaps -/

/-- `LDR` completes in its four forms: `Rd` is the aligned word rotated right by 8 times `addr[1:0]`, and a writeback
form writes the base (R98 to R101, R160). -/
def Obligations.LdrResult : Prop :=
  (∀ (cond : Cond) (u w : Bool) (rn rd : Reg) (off : BitVec 12) (s : State),
    Ready (.ldrImm cond u w rn rd off) s → (w = true → rn ≠ rd) →
    let ea := effective true w u (s.reg rn) (off.setWidth 32)
    s.mapped ea.1 = true → exec (.ldrImm cond u w rn rd off) s = .next (s.afterLdr rn rd ea)) ∧
  (∀ (cond : Cond) (u : Bool) (rn rd : Reg) (off : BitVec 12) (s : State),
    Ready (.ldrImmPost cond u rn rd off) s → rn ≠ rd →
    let ea := effective false false u (s.reg rn) (off.setWidth 32)
    s.mapped ea.1 = true → exec (.ldrImmPost cond u rn rd off) s = .next (s.afterLdr rn rd ea)) ∧
  (∀ (cond : Cond) (u w : Bool) (rn rd : Reg) (n : BitVec 5) (sh : Shift) (rm : Reg) (s : State),
    Ready (.ldrReg cond u w rn rd n sh rm) s → (w = true → rn ≠ rd ∧ rm ≠ rn) →
    let ea := effective true w u (s.reg rn) (shiftOffset (s.reg rm) sh n s.cpsr.c)
    s.mapped ea.1 = true → exec (.ldrReg cond u w rn rd n sh rm) s = .next (s.afterLdr rn rd ea)) ∧
  (∀ (cond : Cond) (u : Bool) (rn rd : Reg) (n : BitVec 5) (sh : Shift) (rm : Reg) (s : State),
    Ready (.ldrRegPost cond u rn rd n sh rm) s → rn ≠ rd ∧ rm ≠ rn →
    let ea := effective false false u (s.reg rn) (shiftOffset (s.reg rm) sh n s.cpsr.c)
    s.mapped ea.1 = true → exec (.ldrRegPost cond u rn rd n sh rm) s = .next (s.afterLdr rn rd ea))

/-- `STR` completes in its four forms: the whole register goes unrotated to the aligned word, and a writeback form
writes the base (R98 to R101, R161). -/
def Obligations.StrResult : Prop :=
  (∀ (cond : Cond) (u w : Bool) (rn rd : Reg) (off : BitVec 12) (s : State),
    Ready (.strImm cond u w rn rd off) s → (w = true → rn ≠ rd) →
    let ea := effective true w u (s.reg rn) (off.setWidth 32)
    s.storable ea.1 → exec (.strImm cond u w rn rd off) s = .next (s.afterStr rn rd ea)) ∧
  (∀ (cond : Cond) (u : Bool) (rn rd : Reg) (off : BitVec 12) (s : State),
    Ready (.strImmPost cond u rn rd off) s → rn ≠ rd →
    let ea := effective false false u (s.reg rn) (off.setWidth 32)
    s.storable ea.1 → exec (.strImmPost cond u rn rd off) s = .next (s.afterStr rn rd ea)) ∧
  (∀ (cond : Cond) (u w : Bool) (rn rd : Reg) (n : BitVec 5) (sh : Shift) (rm : Reg) (s : State),
    Ready (.strReg cond u w rn rd n sh rm) s → (w = true → rn ≠ rd ∧ rm ≠ rn) →
    let ea := effective true w u (s.reg rn) (shiftOffset (s.reg rm) sh n s.cpsr.c)
    s.storable ea.1 → exec (.strReg cond u w rn rd n sh rm) s = .next (s.afterStr rn rd ea)) ∧
  (∀ (cond : Cond) (u : Bool) (rn rd : Reg) (n : BitVec 5) (sh : Shift) (rm : Reg) (s : State),
    Ready (.strRegPost cond u rn rd n sh rm) s → rn ≠ rd ∧ rm ≠ rn →
    let ea := effective false false u (s.reg rn) (shiftOffset (s.reg rm) sh n s.cpsr.c)
    s.storable ea.1 → exec (.strRegPost cond u rn rd n sh rm) s = .next (s.afterStr rn rd ea))

/-- `LDRB` completes in its four forms at every byte address: `Rd` is the zero-extended byte (R98 to R101, R200). -/
def Obligations.LdrbResult : Prop :=
  (∀ (cond : Cond) (u w : Bool) (rn rd : Reg) (off : BitVec 12) (s : State),
    Ready (.ldrbImm cond u w rn rd off) s → (w = true → rn ≠ rd) → s.bSettle = 0 →
    let ea := effective true w u (s.reg rn) (off.setWidth 32)
    s.mapped ea.1 = true → exec (.ldrbImm cond u w rn rd off) s = .next (s.afterLdrb rn rd ea)) ∧
  (∀ (cond : Cond) (u : Bool) (rn rd : Reg) (off : BitVec 12) (s : State),
    Ready (.ldrbImmPost cond u rn rd off) s → rn ≠ rd → s.bSettle = 0 →
    let ea := effective false false u (s.reg rn) (off.setWidth 32)
    s.mapped ea.1 = true → exec (.ldrbImmPost cond u rn rd off) s = .next (s.afterLdrb rn rd ea)) ∧
  (∀ (cond : Cond) (u w : Bool) (rn rd : Reg) (n : BitVec 5) (sh : Shift) (rm : Reg) (s : State),
    Ready (.ldrbReg cond u w rn rd n sh rm) s → (w = true → rn ≠ rd ∧ rm ≠ rn) → s.bSettle = 0 →
    let ea := effective true w u (s.reg rn) (shiftOffset (s.reg rm) sh n s.cpsr.c)
    s.mapped ea.1 = true → exec (.ldrbReg cond u w rn rd n sh rm) s = .next (s.afterLdrb rn rd ea)) ∧
  (∀ (cond : Cond) (u : Bool) (rn rd : Reg) (n : BitVec 5) (sh : Shift) (rm : Reg) (s : State),
    Ready (.ldrbRegPost cond u rn rd n sh rm) s → rn ≠ rd ∧ rm ≠ rn → s.bSettle = 0 →
    let ea := effective false false u (s.reg rn) (shiftOffset (s.reg rm) sh n s.cpsr.c)
    s.mapped ea.1 = true → exec (.ldrbRegPost cond u rn rd n sh rm) s = .next (s.afterLdrb rn rd ea))

/-- `STRB` completes in its four forms at every byte address: `Rd[7:0]` goes to the addressed byte (R98 to R101,
R201). -/
def Obligations.StrbResult : Prop :=
  (∀ (cond : Cond) (u w : Bool) (rn rd : Reg) (off : BitVec 12) (s : State),
    Ready (.strbImm cond u w rn rd off) s → (w = true → rn ≠ rd) → s.bSettle = 0 →
    let ea := effective true w u (s.reg rn) (off.setWidth 32)
    s.storable ea.1 → exec (.strbImm cond u w rn rd off) s = .next (s.afterStrb rn rd ea)) ∧
  (∀ (cond : Cond) (u : Bool) (rn rd : Reg) (off : BitVec 12) (s : State),
    Ready (.strbImmPost cond u rn rd off) s → rn ≠ rd → s.bSettle = 0 →
    let ea := effective false false u (s.reg rn) (off.setWidth 32)
    s.storable ea.1 → exec (.strbImmPost cond u rn rd off) s = .next (s.afterStrb rn rd ea)) ∧
  (∀ (cond : Cond) (u w : Bool) (rn rd : Reg) (n : BitVec 5) (sh : Shift) (rm : Reg) (s : State),
    Ready (.strbReg cond u w rn rd n sh rm) s → (w = true → rn ≠ rd ∧ rm ≠ rn) → s.bSettle = 0 →
    let ea := effective true w u (s.reg rn) (shiftOffset (s.reg rm) sh n s.cpsr.c)
    s.storable ea.1 → exec (.strbReg cond u w rn rd n sh rm) s = .next (s.afterStrb rn rd ea)) ∧
  (∀ (cond : Cond) (u : Bool) (rn rd : Reg) (n : BitVec 5) (sh : Shift) (rm : Reg) (s : State),
    Ready (.strbRegPost cond u rn rd n sh rm) s → rn ≠ rd ∧ rm ≠ rn → s.bSettle = 0 →
    let ea := effective false false u (s.reg rn) (shiftOffset (s.reg rm) sh n s.cpsr.c)
    s.storable ea.1 → exec (.strbRegPost cond u rn rd n sh rm) s = .next (s.afterStrb rn rd ea))

/-- `LDRH` completes at an even address with the zero-extended half word, in the immediate and the register form
(R102 to R104, R180). -/
def Obligations.LdrhEvenResult : Prop :=
  (∀ (cond : Cond) (p u w : Bool) (rn rd : Reg) (h l : BitVec 4) (s : State),
    Ready (.ldrhImm cond p u w rn rd h l) s → (w = true → p = true) → (p = w → rn ≠ rd) → s.bSettle = 0 →
    let ea := effective p w u (s.reg rn) ((h ++ l).setWidth 32)
    s.mapped ea.1 = true → bit ea.1 0 = false →
    exec (.ldrhImm cond p u w rn rd h l) s = .next (s.afterLdrh rn rd ea)) ∧
  (∀ (cond : Cond) (p u w : Bool) (rn rd rm : Reg) (s : State),
    Ready (.ldrhReg cond p u w rn rd rm) s → (w = true → p = true) →
    (p = w → rn ≠ rd ∧ rm ≠ rn) → s.bSettle = 0 →
    let ea := effective p w u (s.reg rn) (s.reg rm)
    s.mapped ea.1 = true → bit ea.1 0 = false →
    exec (.ldrhReg cond p u w rn rd rm) s = .next (s.afterLdrh rn rd ea))

/-- `LDRH` at an odd address completes with a free 32-bit value in `Rd` and everything else as normal: the model's
choice among the spec's two treatments, log 7 (R63, U2, C7). -/
def Obligations.LdrhOddResult : Prop :=
  (∀ (cond : Cond) (p u w : Bool) (rn rd : Reg) (h l : BitVec 4) (s : State),
    Ready (.ldrhImm cond p u w rn rd h l) s → (w = true → p = true) → (p = w → rn ≠ rd) → s.bSettle = 0 →
    let ea := effective p w u (s.reg rn) ((h ++ l).setWidth 32)
    s.mapped ea.1 = true → bit ea.1 0 = true →
    exec (.ldrhImm cond p u w rn rd h l) s = .next (s.afterLdrhOdd rn rd ea)) ∧
  (∀ (cond : Cond) (p u w : Bool) (rn rd rm : Reg) (s : State),
    Ready (.ldrhReg cond p u w rn rd rm) s → (w = true → p = true) →
    (p = w → rn ≠ rd ∧ rm ≠ rn) → s.bSettle = 0 →
    let ea := effective p w u (s.reg rn) (s.reg rm)
    s.mapped ea.1 = true → bit ea.1 0 = true →
    exec (.ldrhReg cond p u w rn rd rm) s = .next (s.afterLdrhOdd rn rd ea))

/-- `STRH` completes at an even address with `Rd[15:0]` in the addressed half word, in the immediate and the register
form (R102 to R104, R181). -/
def Obligations.StrhEvenResult : Prop :=
  (∀ (cond : Cond) (p u w : Bool) (rn rd : Reg) (h l : BitVec 4) (s : State),
    Ready (.strhImm cond p u w rn rd h l) s → (w = true → p = true) → (p = w → rn ≠ rd) → s.bSettle = 0 →
    let ea := effective p w u (s.reg rn) ((h ++ l).setWidth 32)
    s.storable ea.1 → bit ea.1 0 = false →
    exec (.strhImm cond p u w rn rd h l) s = .next (s.afterStrh rn rd ea)) ∧
  (∀ (cond : Cond) (p u w : Bool) (rn rd rm : Reg) (s : State),
    Ready (.strhReg cond p u w rn rd rm) s → (w = true → p = true) →
    (p = w → rn ≠ rd ∧ rm ≠ rn) → s.bSettle = 0 →
    let ea := effective p w u (s.reg rn) (s.reg rm)
    s.storable ea.1 → bit ea.1 0 = false →
    exec (.strhReg cond p u w rn rd rm) s = .next (s.afterStrh rn rd ea))

/-- `STRH` at an odd address completes with a free value in the whole word that contains the address and everything
else as normal: the model's choice among the spec's two treatments, log 8 (R63, U3, C9). -/
def Obligations.StrhOddResult : Prop :=
  (∀ (cond : Cond) (p u w : Bool) (rn rd : Reg) (h l : BitVec 4) (s : State),
    Ready (.strhImm cond p u w rn rd h l) s → (w = true → p = true) → (p = w → rn ≠ rd) → s.bSettle = 0 →
    let ea := effective p w u (s.reg rn) ((h ++ l).setWidth 32)
    s.storable ea.1 → bit ea.1 0 = true →
    exec (.strhImm cond p u w rn rd h l) s = .next (s.afterStrhOdd rn ea)) ∧
  (∀ (cond : Cond) (p u w : Bool) (rn rd rm : Reg) (s : State),
    Ready (.strhReg cond p u w rn rd rm) s → (w = true → p = true) →
    (p = w → rn ≠ rd ∧ rm ≠ rn) → s.bSettle = 0 →
    let ea := effective p w u (s.reg rn) (s.reg rm)
    s.storable ea.1 → bit ea.1 0 = true →
    exec (.strhReg cond p u w rn rd rm) s = .next (s.afterStrhOdd rn ea))

/-- `SWP` completes: the word loaded is rotated as for `LDR`, the register is stored unrotated to the aligned word, and
`Rd = Rm` is allowed (R105, R162). -/
def Obligations.SwpResult : Prop :=
  ∀ (cond : Cond) (rn rd rm : Reg) (s : State), Ready (.swp cond rn rd rm) s → rn ≠ rd → rn ≠ rm →
    s.storable (s.reg rn) →
    exec (.swp cond rn rd rm) s =
      .next ((s.setWord (s.reg rn) (s.reg rm)).setReg rd
        (ror32 (s.word (s.reg rn)) (8 * (field (s.reg rn) 0 2).toNat))).done

/-- `SWPB` completes: `Rd` is the zero-extended byte, `Rm[7:0]` is stored in its place (R105, R202). -/
def Obligations.SwpbResult : Prop :=
  ∀ (cond : Cond) (rn rd rm : Reg) (s : State), Ready (.swpb cond rn rd rm) s → rn ≠ rd → rn ≠ rm →
    s.bSettle = 0 → s.storable (s.reg rn) →
    exec (.swpb cond rn rd rm) s =
      .next ((s.setByte (s.reg rn) (field (s.reg rm) 0 8)).setReg rd
        ((s.byte (s.reg rn)).setWidth 32)).didSubword.done

/-! ### Where memory instructions stop -/

/-- A load, store or swap whose operand combination is allowed and, for a sub-word access, with a settled `B`, ends
with `DataAbort` and the address before truncation when its word is not mapped (R56 to R61). For `LDRH` and `STRH` at an
odd address this is the model's choice, log 25, with the free values of log 7 and log 8: R180, R181 and R221 name the
odd-address outcome first. -/
def Obligations.UnmappedAccessAborts : Prop :=
  ∀ (i : Instr) (s : State) (a : Word), i.wellFormed = true → conditionPassed i.cond s.cpsr = true →
    i.predictable = true → (i.subword = true → s.bSettle = 0) → i.access s = some a → s.mapped a = false →
    exec i s = .fault (.dataAbort a)

/-- A store or swap into mapped program text, otherwise allowed, is refused by name with its address (R59 to R61,
R75). For `STRH` at an odd address this is the model's choice, log 25 and log 8, with the last sentence of U3: R181 and
R221 name the odd-address outcome first. -/
def Obligations.TextIsImmutable : Prop :=
  ∀ (i : Instr) (s : State) (a : Word), i.wellFormed = true → conditionPassed i.cond s.cpsr = true →
    i.predictable = true → (i.subword = true → s.bSettle = 0) → i.stores = true → i.access s = some a →
    s.mapped a = true → s.inText a = true → exec i s = .refused (.storeIntoText a)

/-- A writeback form with `Rn = Rd`, or else with `Rm = Rn`, is UNPREDICTABLE, in every load and store
(R101 (b), (c); R104 (b), (c)). -/
def Obligations.WritebackClashFaults : Prop :=
  ∀ (i : Instr) (s : State) (rn rd : Reg) (rm : Option Reg), i.wellFormed = true →
    conditionPassed i.cond s.cpsr = true → i.writebackRegs = some (rn, rd, rm) →
    (rn = rd → exec i s = .fault (.unpredictable (.writebackRnRd (encode i)))) ∧
    (rn ≠ rd → rm = some rn → exec i s = .fault (.unpredictable (.writebackRmRn (encode i))))

/-- `LDRH` and `STRH` with `P = 0` and `W = 1`, and `SWP` and `SWPB` with `Rn = Rd` or `Rn = Rm`, are UNPREDICTABLE
(R103, R105). -/
def Obligations.UnpredictableFormsFault : Prop :=
  (∀ (i : Instr) (s : State), i.wellFormed = true → conditionPassed i.cond s.cpsr = true →
    (∃ cond u rn rd h l, i = .ldrhImm cond false u true rn rd h l ∨ i = .strhImm cond false u true rn rd h l) ∨
      (∃ cond u rn rd rm, i = .ldrhReg cond false u true rn rd rm ∨ i = .strhReg cond false u true rn rd rm) →
    exec i s = .fault (.unpredictable (.halfP0W1 (encode i)))) ∧
  (∀ (cond : Cond) (rn rd rm : Reg) (i : Instr) (s : State), i = .swp cond rn rd rm ∨ i = .swpb cond rn rd rm →
    i.wellFormed = true → conditionPassed i.cond s.cpsr = true → rn = rd ∨ rn = rm →
    exec i s = .fault (.unpredictable (.swapBase (encode i))))

/-- A sub-word access with an allowed operand combination ends with `UNPREDICTABLE(B not yet in effect)` while
`BSettle` is above 0, before its address is looked at (R34, R137, R221). -/
def Obligations.UnsettledSubwordFaults : Prop :=
  ∀ (i : Instr) (s : State), i.wellFormed = true → conditionPassed i.cond s.cpsr = true → i.predictable = true →
    i.subword = true → 0 < s.bSettle → exec i s = .fault (.unpredictable .bNotYetInEffect)
end

