-- ==== Sys2Proof/Laws/Decode.lean ====
section
/-! SUPPORT. Small lemmas of the decoder and encoder: reading a field of a word that fields were placed into, and the
codes of conditions and shifts. -/

namespace Sys2Proof

@[simp] theorem Cond.ofCode_code (c : Cond) : Cond.ofCode c.code = some c := by cases c <;> rfl

@[simp] theorem Shift.ofCode_code (s : Shift) : Shift.ofCode s.code = s := by cases s <;> rfl

/-- A code that stands for a condition is that condition's code (R92). -/
theorem Cond.code_of_ofCode {v : BitVec 4} {c : Cond} : Cond.ofCode v = some c → c.code = v := by
  revert v; cases c <;> decide

theorem Shift.code_ofCode (v : BitVec 2) : (Shift.ofCode v).code = v := by revert v; decide

theorem bit_or (a b : Word) (i : Nat) : bit (a ||| b) i = (bit a i || bit b i) := by simp [bit]

theorem field_or (a b : Word) (lo n : Nat) : field (a ||| b) lo n = field a lo n ||| field b lo n := by
  ext i hi
  simp [field, BitVec.getElem_extractLsb']

theorem bit_place {n : Nat} (v : BitVec n) (p i : Nat) (hi : i < 32) :
    bit (place v p) i = (decide (p ≤ i) && v.getLsbD (i - p)) := by
  unfold bit place
  by_cases hp : p ≤ i
  · simp [hp, hi]
  · simp [hp]

theorem bit_placeBit (b : Bool) (p i : Nat) (hi : i < 32) : bit (placeBit b p) i = (decide (i = p) && b) := by
  rw [placeBit, bit_place _ _ _ hi]
  by_cases h : i = p
  · subst h; simp
  · by_cases hp : p ≤ i
    · have : i - p ≠ 0 := by omega
      simp [h, BitVec.getLsbD_ofBool, this]
    · simp [h, hp]

theorem field_getLsbD (w : Word) (lo n i : Nat) (hi : i < n) : (field w lo n).getLsbD i = bit w (lo + i) := by
  simp [field, bit, hi]

/-- A placed field is read back whole. -/
theorem field_place_self {n : Nat} (v : BitVec n) (p : Nat) (h : p + n ≤ 32) : field (place v p) p n = v := by
  apply BitVec.eq_of_getLsbD_eq
  intro i hi
  rw [field_getLsbD _ _ _ _ hi, bit_place _ _ _ (by omega)]
  simp

/-- Bits above a placed field are zero. -/
theorem field_place_above {n m : Nat} (v : BitVec m) (p lo : Nat) (h : p + m ≤ lo) (h32 : lo + n ≤ 32) :
    field (place v p) lo n = 0#n := by
  apply BitVec.eq_of_getLsbD_eq
  intro i hi
  rw [field_getLsbD _ _ _ _ hi, bit_place _ _ _ (by omega), BitVec.getLsbD_of_ge _ _ (by omega)]
  simp

/-- Bits below a placed field are zero. -/
theorem field_place_below {n m : Nat} (v : BitVec m) (p lo : Nat) (h : lo + n ≤ p) (h32 : lo + n ≤ 32) :
    field (place v p) lo n = 0#n := by
  apply BitVec.eq_of_getLsbD_eq
  intro i hi
  rw [field_getLsbD _ _ _ _ hi, bit_place _ _ _ (by omega)]
  simp; omega

end Sys2Proof
end

