-- ==== Sys2Proof/Laws/State.lean ====
section
/-! SUPPORT. One small lemma per field per update of the state, and the reads over each update. -/

namespace Sys2Proof.Machine

/-! ### `setReg` -/

@[simp] theorem State.setReg_pc (s : State) (r : Reg) (v : Word) : (s.setReg r v).pc = s.pc := by
  unfold State.setReg; split <;> rfl

@[simp] theorem State.setReg_cpsr (s : State) (r : Reg) (v : Word) : (s.setReg r v).cpsr = s.cpsr := by
  unfold State.setReg; split <;> rfl

@[simp] theorem State.setReg_control (s : State) (r : Reg) (v : Word) : (s.setReg r v).control = s.control := by
  unfold State.setReg; split <;> rfl

@[simp] theorem State.setReg_mem (s : State) (r : Reg) (v : Word) : (s.setReg r v).mem = s.mem := by
  unfold State.setReg; split <;> rfl

@[simp] theorem State.setReg_subwordDone (s : State) (r : Reg) (v : Word) : (s.setReg r v).subwordDone = s.subwordDone := by
  unfold State.setReg; split <;> rfl

@[simp] theorem State.setReg_bSettle (s : State) (r : Reg) (v : Word) : (s.setReg r v).bSettle = s.bSettle := by
  unfold State.setReg; split <;> rfl

@[simp] theorem State.setReg_platform (s : State) (r : Reg) (v : Word) : (s.setReg r v).platform = s.platform := by
  unfold State.setReg; split <;> rfl

@[simp] theorem State.setReg_drawn (s : State) (r : Reg) (v : Word) : (s.setReg r v).drawn = s.drawn := by
  unfold State.setReg; split <;> rfl

theorem Reg.toNat_lt_of_ne {r : Reg} (h : r ≠ 15#4) : r.toNat < 15 := by
  have h1 := r.isLt
  have h2 : r.toNat ≠ 15 := fun e => h (BitVec.eq_of_toNat_eq (by simpa using e))
  omega

/-- A named register reads back what was written (R9). -/
theorem State.reg_setReg_self (s : State) {r : Reg} (h : r ≠ 15#4) (v : Word) : (s.setReg r v).reg r = v := by
  have h' := Reg.toNat_lt_of_ne h
  simp [State.reg, State.setReg, h']

/-- The other registers are unchanged (R9). -/
theorem State.reg_setReg_ne (s : State) {r q : Reg} (h : q ≠ r) (v : Word) : (s.setReg r v).reg q = s.reg q := by
  have hne : r.toNat ≠ q.toNat := fun e => h (BitVec.eq_of_toNat_eq e.symm)
  unfold State.setReg
  split
  · simp only [State.reg]
    split
    · exact Vector.getElem_set_ne _ _ hne
    · rfl
  · rfl

/-! ### `setWord` -/

@[simp] theorem State.setWord_regs (s : State) (addr v : Word) : (s.setWord addr v).regs = s.regs := rfl

@[simp] theorem State.setWord_pc (s : State) (addr v : Word) : (s.setWord addr v).pc = s.pc := rfl

@[simp] theorem State.setWord_cpsr (s : State) (addr v : Word) : (s.setWord addr v).cpsr = s.cpsr := rfl

@[simp] theorem State.setWord_control (s : State) (addr v : Word) : (s.setWord addr v).control = s.control := rfl

@[simp] theorem State.setWord_mem (s : State) (addr v : Word) : (s.setWord addr v).mem = s.mem.putWord (align addr) v := rfl

@[simp] theorem State.setWord_subwordDone (s : State) (addr v : Word) : (s.setWord addr v).subwordDone = s.subwordDone := rfl

@[simp] theorem State.setWord_bSettle (s : State) (addr v : Word) : (s.setWord addr v).bSettle = s.bSettle := rfl

@[simp] theorem State.setWord_platform (s : State) (addr v : Word) : (s.setWord addr v).platform = s.platform := rfl

@[simp] theorem State.setWord_drawn (s : State) (addr v : Word) : (s.setWord addr v).drawn = s.drawn := rfl

@[simp] theorem State.setWord_reg (s : State) (addr v : Word) (r : Reg) : (s.setWord addr v).reg r = s.reg r := rfl

/-! ### `setHalf` -/

@[simp] theorem State.setHalf_regs (s : State) (addr : Word) (v : Half) : (s.setHalf addr v).regs = s.regs := rfl

@[simp] theorem State.setHalf_pc (s : State) (addr : Word) (v : Half) : (s.setHalf addr v).pc = s.pc := rfl

@[simp] theorem State.setHalf_cpsr (s : State) (addr : Word) (v : Half) : (s.setHalf addr v).cpsr = s.cpsr := rfl

@[simp] theorem State.setHalf_control (s : State) (addr : Word) (v : Half) : (s.setHalf addr v).control = s.control := rfl

@[simp] theorem State.setHalf_mem (s : State) (addr : Word) (v : Half) : (s.setHalf addr v).mem = s.mem.putHalf s.big addr v := rfl

@[simp] theorem State.setHalf_subwordDone (s : State) (addr : Word) (v : Half) : (s.setHalf addr v).subwordDone = s.subwordDone := rfl

@[simp] theorem State.setHalf_bSettle (s : State) (addr : Word) (v : Half) : (s.setHalf addr v).bSettle = s.bSettle := rfl

@[simp] theorem State.setHalf_platform (s : State) (addr : Word) (v : Half) : (s.setHalf addr v).platform = s.platform := rfl

@[simp] theorem State.setHalf_drawn (s : State) (addr : Word) (v : Half) : (s.setHalf addr v).drawn = s.drawn := rfl

@[simp] theorem State.setHalf_reg (s : State) (addr : Word) (v : Half) (r : Reg) : (s.setHalf addr v).reg r = s.reg r := rfl

/-! ### `setByte` -/

@[simp] theorem State.setByte_regs (s : State) (addr : Word) (v : Byte) : (s.setByte addr v).regs = s.regs := rfl

@[simp] theorem State.setByte_pc (s : State) (addr : Word) (v : Byte) : (s.setByte addr v).pc = s.pc := rfl

@[simp] theorem State.setByte_cpsr (s : State) (addr : Word) (v : Byte) : (s.setByte addr v).cpsr = s.cpsr := rfl

@[simp] theorem State.setByte_control (s : State) (addr : Word) (v : Byte) : (s.setByte addr v).control = s.control := rfl

@[simp] theorem State.setByte_mem (s : State) (addr : Word) (v : Byte) : (s.setByte addr v).mem = s.mem.putByte s.big addr v := rfl

@[simp] theorem State.setByte_subwordDone (s : State) (addr : Word) (v : Byte) : (s.setByte addr v).subwordDone = s.subwordDone := rfl

@[simp] theorem State.setByte_bSettle (s : State) (addr : Word) (v : Byte) : (s.setByte addr v).bSettle = s.bSettle := rfl

@[simp] theorem State.setByte_platform (s : State) (addr : Word) (v : Byte) : (s.setByte addr v).platform = s.platform := rfl

@[simp] theorem State.setByte_drawn (s : State) (addr : Word) (v : Byte) : (s.setByte addr v).drawn = s.drawn := rfl

@[simp] theorem State.setByte_reg (s : State) (addr : Word) (v : Byte) (r : Reg) : (s.setByte addr v).reg r = s.reg r := rfl

/-! ### `didSubword` -/

@[simp] theorem State.didSubword_regs (s : State) : s.didSubword.regs = s.regs := rfl

@[simp] theorem State.didSubword_pc (s : State) : s.didSubword.pc = s.pc := rfl

@[simp] theorem State.didSubword_cpsr (s : State) : s.didSubword.cpsr = s.cpsr := rfl

@[simp] theorem State.didSubword_control (s : State) : s.didSubword.control = s.control := rfl

@[simp] theorem State.didSubword_mem (s : State) : s.didSubword.mem = s.mem := rfl

@[simp] theorem State.didSubword_subwordDone (s : State) : s.didSubword.subwordDone = true := rfl

@[simp] theorem State.didSubword_bSettle (s : State) : s.didSubword.bSettle = s.bSettle := rfl

@[simp] theorem State.didSubword_platform (s : State) : s.didSubword.platform = s.platform := rfl

@[simp] theorem State.didSubword_drawn (s : State) : s.didSubword.drawn = s.drawn := rfl

@[simp] theorem State.didSubword_reg (s : State) (r : Reg) : s.didSubword.reg r = s.reg r := rfl

/-! ### `draw` -/

@[simp] theorem State.draw_regs (s : State) : s.draw.regs = s.regs := rfl

@[simp] theorem State.draw_pc (s : State) : s.draw.pc = s.pc := rfl

@[simp] theorem State.draw_cpsr (s : State) : s.draw.cpsr = s.cpsr := rfl

@[simp] theorem State.draw_control (s : State) : s.draw.control = s.control := rfl

@[simp] theorem State.draw_mem (s : State) : s.draw.mem = s.mem := rfl

@[simp] theorem State.draw_subwordDone (s : State) : s.draw.subwordDone = s.subwordDone := rfl

@[simp] theorem State.draw_bSettle (s : State) : s.draw.bSettle = s.bSettle := rfl

@[simp] theorem State.draw_platform (s : State) : s.draw.platform = s.platform := rfl

@[simp] theorem State.draw_drawn (s : State) : s.draw.drawn = s.drawn + 1 := rfl

@[simp] theorem State.draw_reg (s : State) (r : Reg) : s.draw.reg r = s.reg r := rfl

/-! ### `done` -/

@[simp] theorem State.done_regs (s : State) : s.done.regs = s.regs := rfl

@[simp] theorem State.done_pc (s : State) : s.done.pc = s.pc + 4#32 := rfl

@[simp] theorem State.done_cpsr (s : State) : s.done.cpsr = s.cpsr := rfl

@[simp] theorem State.done_control (s : State) : s.done.control = s.control := rfl

@[simp] theorem State.done_mem (s : State) : s.done.mem = s.mem := rfl

@[simp] theorem State.done_subwordDone (s : State) : s.done.subwordDone = s.subwordDone := rfl

@[simp] theorem State.done_bSettle (s : State) : s.done.bSettle = s.bSettle - 1 := rfl

@[simp] theorem State.done_platform (s : State) : s.done.platform = s.platform := rfl

@[simp] theorem State.done_drawn (s : State) : s.done.drawn = s.drawn := rfl

theorem State.done_reg (s : State) {r : Reg} (h : r ≠ 15#4) : s.done.reg r = s.reg r := by
  simp [State.reg, Reg.toNat_lt_of_ne h]

/-! ### Writeback -/

@[simp] theorem Transfer.writeBack_pc (t : Transfer) (s : State) : (t.writeBack s).pc = s.pc := by
  unfold Transfer.writeBack; split <;> simp

@[simp] theorem State.writeBack_pc (s : State) (rn : Reg) (wb : Option Word) : (s.writeBack rn wb).pc = s.pc := by
  cases wb <;> simp [State.writeBack]

@[simp] theorem Transfer.writeBack_cpsr (t : Transfer) (s : State) : (t.writeBack s).cpsr = s.cpsr := by
  unfold Transfer.writeBack; split <;> simp

@[simp] theorem State.writeBack_cpsr (s : State) (rn : Reg) (wb : Option Word) : (s.writeBack rn wb).cpsr = s.cpsr := by
  cases wb <;> simp [State.writeBack]

@[simp] theorem Transfer.writeBack_control (t : Transfer) (s : State) : (t.writeBack s).control = s.control := by
  unfold Transfer.writeBack; split <;> simp

@[simp] theorem State.writeBack_control (s : State) (rn : Reg) (wb : Option Word) : (s.writeBack rn wb).control = s.control := by
  cases wb <;> simp [State.writeBack]

@[simp] theorem Transfer.writeBack_mem (t : Transfer) (s : State) : (t.writeBack s).mem = s.mem := by
  unfold Transfer.writeBack; split <;> simp

@[simp] theorem State.writeBack_mem (s : State) (rn : Reg) (wb : Option Word) : (s.writeBack rn wb).mem = s.mem := by
  cases wb <;> simp [State.writeBack]

@[simp] theorem Transfer.writeBack_subwordDone (t : Transfer) (s : State) : (t.writeBack s).subwordDone = s.subwordDone := by
  unfold Transfer.writeBack; split <;> simp

@[simp] theorem State.writeBack_subwordDone (s : State) (rn : Reg) (wb : Option Word) : (s.writeBack rn wb).subwordDone = s.subwordDone := by
  cases wb <;> simp [State.writeBack]

@[simp] theorem Transfer.writeBack_bSettle (t : Transfer) (s : State) : (t.writeBack s).bSettle = s.bSettle := by
  unfold Transfer.writeBack; split <;> simp

@[simp] theorem State.writeBack_bSettle (s : State) (rn : Reg) (wb : Option Word) : (s.writeBack rn wb).bSettle = s.bSettle := by
  cases wb <;> simp [State.writeBack]

@[simp] theorem Transfer.writeBack_platform (t : Transfer) (s : State) : (t.writeBack s).platform = s.platform := by
  unfold Transfer.writeBack; split <;> simp

@[simp] theorem State.writeBack_platform (s : State) (rn : Reg) (wb : Option Word) : (s.writeBack rn wb).platform = s.platform := by
  cases wb <;> simp [State.writeBack]

@[simp] theorem Transfer.writeBack_drawn (t : Transfer) (s : State) : (t.writeBack s).drawn = s.drawn := by
  unfold Transfer.writeBack; split <;> simp

@[simp] theorem State.writeBack_drawn (s : State) (rn : Reg) (wb : Option Word) : (s.writeBack rn wb).drawn = s.drawn := by
  cases wb <;> simp [State.writeBack]

/-! ### What is read of an updated state -/

@[simp] theorem State.setReg_big (s : State) (r : Reg) (v : Word) : (s.setReg r v).big = s.big := by simp [State.big]

@[simp] theorem State.setReg_mapped (s : State) (r : Reg) (v : Word) (x : Word) : (s.setReg r v).mapped x = s.mapped x := by
  simp [State.mapped]

@[simp] theorem State.setReg_inText (s : State) (r : Reg) (v : Word) (x : Word) : (s.setReg r v).inText x = s.inText x := by
  simp [State.inText]

@[simp] theorem State.setReg_word (s : State) (r : Reg) (v : Word) (x : Word) : (s.setReg r v).word x = s.word x := by
  simp [State.word]

@[simp] theorem State.setReg_half (s : State) (r : Reg) (v : Word) (x : Word) : (s.setReg r v).half x = s.half x := by
  simp [State.half]

@[simp] theorem State.setReg_byte (s : State) (r : Reg) (v : Word) (x : Word) : (s.setReg r v).byte x = s.byte x := by
  simp [State.byte]

@[simp] theorem Transfer.writeBack_big (t : Transfer) (s : State) : (t.writeBack s).big = s.big := by simp [State.big]

@[simp] theorem State.writeBack_big (s : State) (rn : Reg) (wb : Option Word) : (s.writeBack rn wb).big = s.big := by
  simp [State.big]

@[simp] theorem State.setWord_big (s : State) (addr v : Word) : (s.setWord addr v).big = s.big := by simp [State.big]

@[simp] theorem State.setWord_mapped (s : State) (addr v : Word) (x : Word) : (s.setWord addr v).mapped x = s.mapped x := by
  simp [State.mapped]

@[simp] theorem State.setWord_inText (s : State) (addr v : Word) (x : Word) : (s.setWord addr v).inText x = s.inText x := by
  simp [State.inText]

@[simp] theorem State.setHalf_big (s : State) (addr : Word) (v : Half) : (s.setHalf addr v).big = s.big := by simp [State.big]

@[simp] theorem State.setHalf_mapped (s : State) (addr : Word) (v : Half) (x : Word) : (s.setHalf addr v).mapped x = s.mapped x := by
  simp [State.mapped]

@[simp] theorem State.setHalf_inText (s : State) (addr : Word) (v : Half) (x : Word) : (s.setHalf addr v).inText x = s.inText x := by
  simp [State.inText]

@[simp] theorem State.setByte_big (s : State) (addr : Word) (v : Byte) : (s.setByte addr v).big = s.big := by simp [State.big]

@[simp] theorem State.setByte_mapped (s : State) (addr : Word) (v : Byte) (x : Word) : (s.setByte addr v).mapped x = s.mapped x := by
  simp [State.mapped]

@[simp] theorem State.setByte_inText (s : State) (addr : Word) (v : Byte) (x : Word) : (s.setByte addr v).inText x = s.inText x := by
  simp [State.inText]

@[simp] theorem State.didSubword_big (s : State) : s.didSubword.big = s.big := by simp [State.big]

@[simp] theorem State.didSubword_mapped (s : State) (x : Word) : s.didSubword.mapped x = s.mapped x := by
  simp [State.mapped]

@[simp] theorem State.didSubword_inText (s : State) (x : Word) : s.didSubword.inText x = s.inText x := by
  simp [State.inText]

@[simp] theorem State.didSubword_word (s : State) (x : Word) : s.didSubword.word x = s.word x := by
  simp [State.word]

@[simp] theorem State.didSubword_half (s : State) (x : Word) : s.didSubword.half x = s.half x := by
  simp [State.half]

@[simp] theorem State.didSubword_byte (s : State) (x : Word) : s.didSubword.byte x = s.byte x := by
  simp [State.byte]

@[simp] theorem State.draw_big (s : State) : s.draw.big = s.big := by simp [State.big]

@[simp] theorem State.draw_mapped (s : State) (x : Word) : s.draw.mapped x = s.mapped x := by
  simp [State.mapped]

@[simp] theorem State.draw_inText (s : State) (x : Word) : s.draw.inText x = s.inText x := by
  simp [State.inText]

@[simp] theorem State.draw_word (s : State) (x : Word) : s.draw.word x = s.word x := by
  simp [State.word]

@[simp] theorem State.draw_half (s : State) (x : Word) : s.draw.half x = s.half x := by
  simp [State.half]

@[simp] theorem State.draw_byte (s : State) (x : Word) : s.draw.byte x = s.byte x := by
  simp [State.byte]

@[simp] theorem State.done_big (s : State) : s.done.big = s.big := by simp [State.big]

@[simp] theorem State.done_mapped (s : State) (x : Word) : s.done.mapped x = s.mapped x := by
  simp [State.mapped]

@[simp] theorem State.done_inText (s : State) (x : Word) : s.done.inText x = s.inText x := by
  simp [State.inText]

@[simp] theorem State.done_word (s : State) (x : Word) : s.done.word x = s.word x := by
  simp [State.word]

@[simp] theorem State.done_half (s : State) (x : Word) : s.done.half x = s.half x := by
  simp [State.half]

@[simp] theorem State.done_byte (s : State) (x : Word) : s.done.byte x = s.byte x := by
  simp [State.byte]

end Sys2Proof.Machine
end

