-- ==== Sys2Proof/Laws/Memory.lean ====
section
/-! SUPPORT. Memory: reading what was written, leaving every other cell alone, and keeping the canonical form; then the
same for words, half words and bytes. -/

namespace Sys2Proof.Machine

/-! ### Cells -/

theorem Memory.get_dropWhile_gt (m : Memory) {a c : Nat} (h : a < c) :
    Memory.get (m.dropWhile fun e => e.1 ≤ a) c = Memory.get m c := by
  induction m with
  | nil => rfl
  | cons e rest ih =>
    obtain ⟨k, b⟩ := e
    by_cases hk : k ≤ a
    · have h1 : k ≠ c := by omega
      have h2 : ¬ c < k := by omega
      simp [List.dropWhile, hk, Memory.get, h1, h2, ih]
    · simp [List.dropWhile, hk]

theorem Memory.get_dropWhile_le (m : Memory) {a c : Nat} (h : c ≤ a) :
    Memory.get (m.dropWhile fun e => e.1 ≤ a) c = Config.unlistedByte := by
  induction m with
  | nil => rfl
  | cons e rest ih =>
    obtain ⟨k, b⟩ := e
    by_cases hk : k ≤ a
    · simp [List.dropWhile, hk, ih]
    · have h1 : k ≠ c := by omega
      have h2 : c < k := by omega
      simp [List.dropWhile, hk, Memory.get, h1, h2]

/-- A cell reads back what was written. -/
theorem Memory.get_put_self (m : Memory) (a : Nat) (v : Byte) : (m.put a v).get a = v := by
  induction m with
  | nil =>
    by_cases hv : v = Config.unlistedByte <;> simp [Memory.put, Memory.get, hv]
  | cons e rest ih =>
    obtain ⟨k, b⟩ := e
    unfold Memory.put
    split
    · rename_i h
      have h1 : k ≠ a := by omega
      have h2 : ¬ a < k := by omega
      simp [Memory.get, h1, h2, ih]
    · split
      · split
        · rename_i hv; rw [Memory.get_dropWhile_le _ (Nat.le_refl a), hv]
        · simp [Memory.get]
      · rename_i h1 h2
        have h3 : a < k := by omega
        split
        · rename_i hv; simp [Memory.get, h2, h3, hv]
        · simp [Memory.get]

/-- Every other cell is unchanged. -/
theorem Memory.get_put_ne (m : Memory) {a c : Nat} (h : c ≠ a) (v : Byte) : (m.put a v).get c = m.get c := by
  induction m with
  | nil =>
    by_cases hv : v = Config.unlistedByte
    · simp [Memory.put, hv]
    · have : a ≠ c := fun e => h e.symm
      simp [Memory.put, Memory.get, hv, this]
  | cons e rest ih =>
    obtain ⟨k, b⟩ := e
    unfold Memory.put
    split
    · simp only [Memory.get, ih]
    · split
      · rename_i h1 h2
        subst h2
        have hk : ¬ k = c := fun e => h e.symm
        split
        · rcases Nat.lt_or_ge k c with hc | hc
          · have : ¬ c < k := by omega
            rw [Memory.get_dropWhile_gt _ hc]; simp [Memory.get, hk, this]
          · have : c < k := by omega
            rw [Memory.get_dropWhile_le _ hc]; simp [Memory.get, hk, this]
        · simp [Memory.get, hk]
      · rename_i h1 h2
        have ha : ¬ a = c := fun e => h e.symm
        split
        · rfl
        · rcases Nat.lt_or_ge c a with hc | hc
          · have h3 : ¬ k = c := by omega
            have h4 : c < k := by omega
            simp [Memory.get, ha, hc, h3, h4]
          · have : ¬ c < a := by omega
            simp [Memory.get, ha, this]

theorem Memory.get_put (m : Memory) (a c : Nat) (v : Byte) :
    (m.put a v).get c = if c = a then v else m.get c := by
  split
  · rename_i h; subst h; exact Memory.get_put_self ..
  · rename_i h; exact Memory.get_put_ne _ h _

/-! ### The canonical form -/

theorem Memory.wfFrom_mono {m : Memory} {lo lo' : Nat} (h : lo' ≤ lo) (hm : m.wfFrom lo = true) :
    m.wfFrom lo' = true := by
  cases m with
  | nil => rfl
  | cons e rest =>
    simp only [Memory.wfFrom, Bool.and_eq_true, decide_eq_true_eq] at hm ⊢
    exact ⟨⟨⟨by omega, hm.1.1.2⟩, hm.1.2⟩, hm.2⟩

theorem Memory.dropWhile_of_wfFrom {m : Memory} {a : Nat} (hm : m.wfFrom (a + 1) = true) :
    (m.dropWhile fun e => e.1 ≤ a) = m := by
  cases m with
  | nil => rfl
  | cons e rest =>
    simp only [Memory.wfFrom, Bool.and_eq_true, decide_eq_true_eq] at hm
    have h : ¬ e.1 ≤ a := by omega
    simp [List.dropWhile, h]

theorem Memory.wfFrom_put {m : Memory} {lo a : Nat} (v : Byte) (hm : m.wfFrom lo = true) (hlo : lo ≤ a)
    (ha : a < 2 ^ 32) : (m.put a v).wfFrom lo = true := by
  induction m generalizing lo with
  | nil =>
    by_cases hv : v = Config.unlistedByte
    · simp [Memory.put, hv, Memory.wfFrom]
    · simp [Memory.put, hv, Memory.wfFrom, hlo]; omega
  | cons e rest ih =>
    obtain ⟨k, b⟩ := e
    have hm' := hm
    simp only [Memory.wfFrom, Bool.and_eq_true, decide_eq_true_eq] at hm'
    obtain ⟨⟨⟨h1, h2⟩, h3⟩, h4⟩ := hm'
    unfold Memory.put
    split
    · rename_i hk
      simp only [Memory.wfFrom, Bool.and_eq_true, decide_eq_true_eq]
      exact ⟨⟨⟨h1, h2⟩, h3⟩, ih h4 (by omega)⟩
    · split
      · rename_i hk
        subst hk
        split
        · rw [Memory.dropWhile_of_wfFrom h4]; exact Memory.wfFrom_mono (by omega) h4
        · rename_i hv
          simp only [Memory.wfFrom, Bool.and_eq_true, decide_eq_true_eq]
          exact ⟨⟨⟨h1, h2⟩, by simpa using hv⟩, h4⟩
      · split
        · exact hm
        · rename_i hk1 hk2 hv
          simp only [Memory.wfFrom, Bool.and_eq_true, decide_eq_true_eq]
          exact ⟨⟨⟨hlo, ha⟩, by simpa using hv⟩, ⟨⟨by omega, h2⟩, h3⟩, h4⟩

/-- Writing a cell of the address space keeps memory canonical. -/
theorem Memory.wf_put {m : Memory} {a : Nat} (v : Byte) (hm : m.wf = true) (ha : a < 2 ^ 32) :
    (m.put a v).wf = true := Memory.wfFrom_put v hm (Nat.zero_le _) ha

/-! ### Alignment -/

/-- `addr & 0xFFFFFFFC` clears the two low bits. -/
theorem align_toNat (addr : Word) : (align addr).toNat = addr.toNat - addr.toNat % 4 := by
  have h : align addr = (addr >>> 2) <<< 2 := by
    apply BitVec.eq_of_getLsbD_eq
    intro i hi
    have : (0xFFFFFFFC#32).getLsbD i = decide (2 ≤ i) := by
      revert i; decide
    rw [align, BitVec.getLsbD_and, this, BitVec.getLsbD_shiftLeft]
    by_cases h2 : 2 ≤ i
    · have h3 : ¬ i < 2 := by omega
      have e : 2 + (i - 2) = i := by omega
      simp [hi, h2, h3, e]
    · have h3 : i < 2 := by omega
      simp [h2, h3]
  rw [h, BitVec.toNat_shiftLeft, BitVec.toNat_ushiftRight, Nat.shiftRight_eq_div_pow, Nat.shiftLeft_eq]
  have := addr.isLt
  omega

theorem align_add_lt (addr : Word) {k : Nat} (h : k < 4) : (align addr).toNat + k < 2 ^ 32 := by
  rw [align_toNat]
  have := addr.isLt
  omega

theorem align_align (addr : Word) : align (align addr) = align addr := by
  unfold align; rw [BitVec.and_assoc]; rfl

theorem field_low_toNat (addr : Word) : (field addr 0 2).toNat = addr.toNat % 4 := by simp [field]

theorem field_bit1_toNat (addr : Word) : (field addr 1 1).toNat = addr.toNat / 2 % 2 := by
  simp [field, Nat.shiftRight_eq_div_pow]

theorem byteLane_lt (big : Bool) (addr : Word) : byteLane big addr < 4 := by
  have := (field addr 0 2).isLt
  unfold byteLane; split <;> omega

theorem halfLane_lt (big : Bool) (addr : Word) : halfLane big addr < 2 := by
  have := (field addr 1 1).isLt
  unfold halfLane; split <;> omega

/-- Words at different aligned addresses share no cell. -/
theorem align_cells_ne {x y : Word} (h : align x ≠ align y) {j k : Nat} (hj : j < 4) (hk : k < 4) :
    (align x).toNat + j ≠ (align y).toNat + k := by
  intro e
  apply h
  apply BitVec.eq_of_toNat_eq
  have h1 := align_toNat x
  have h2 := align_toNat y
  omega

/-! ### Words -/

/-- A byte lane of a word is its cell (log 1). -/
theorem Memory.field_word (m : Memory) (a : Word) {k : Nat} (hk : k < 4) :
    field (m.word a) (8 * k) 8 = m.get (a.toNat + k) := by
  unfold Memory.word
  have : k = 0 ∨ k = 1 ∨ k = 2 ∨ k = 3 := by omega
  rcases this with rfl | rfl | rfl | rfl <;>
    simp (disch := omega) [field_or, field_place_self, field_place_above, field_place_below]

/-- Two words with the same byte lanes are equal. -/
theorem word_ext {v w : Word} (h : ∀ k, k < 4 → field v (8 * k) 8 = field w (8 * k) 8) : v = w := by
  apply BitVec.eq_of_getLsbD_eq
  intro i hi
  have := congrArg (fun b : Byte => b.getLsbD (i % 8)) (h (i / 8) (by omega))
  simp only [field_getLsbD _ _ _ _ (Nat.mod_lt i (by omega : 0 < 8)), Nat.div_add_mod, bit] at this
  exact this

theorem Memory.get_putWord (m : Memory) (a v : Word) (c : Nat) :
    (m.putWord a v).get c =
      if c = a.toNat + 3 then field v 24 8 else if c = a.toNat + 2 then field v 16 8
      else if c = a.toNat + 1 then field v 8 8 else if c = a.toNat then field v 0 8 else m.get c := by
  simp only [Memory.putWord, Memory.get_put]

/-- A word reads back what was written. -/
theorem Memory.word_putWord_self (m : Memory) (a v : Word) : (m.putWord a v).word a = v := by
  apply word_ext
  intro k hk
  rw [Memory.field_word _ _ hk, Memory.get_putWord]
  have : k = 0 ∨ k = 1 ∨ k = 2 ∨ k = 3 := by omega
  rcases this with rfl | rfl | rfl | rfl <;> simp

/-- Memories that agree on the four cells of a word agree on the word. -/
theorem Memory.word_congr {m m' : Memory} {a : Word} (h : ∀ k, k < 4 → m.get (a.toNat + k) = m'.get (a.toNat + k)) :
    m.word a = m'.word a := by
  apply word_ext
  intro k hk
  rw [Memory.field_word _ _ hk, Memory.field_word _ _ hk, h k hk]

/-- Every other aligned word is unchanged. -/
theorem Memory.word_putWord_ne (m : Memory) {x a : Word} (h : align x ≠ align a) (v : Word) :
    (m.putWord (align a) v).word (align x) = m.word (align x) := by
  apply Memory.word_congr
  intro k hk
  have h0 := align_cells_ne h hk (by omega : 0 < 4)
  have h1 := align_cells_ne h hk (by omega : 1 < 4)
  have h2 := align_cells_ne h hk (by omega : 2 < 4)
  have h3 := align_cells_ne h hk (by omega : 3 < 4)
  simp only [Nat.add_zero] at h0
  simp [Memory.get_putWord, h0, h1, h2, h3]

theorem Memory.wf_putWord {m : Memory} (addr v : Word) (hm : m.wf = true) : (m.putWord (align addr) v).wf = true := by
  have h0 := align_add_lt addr (by omega : 0 < 4)
  have h1 := align_add_lt addr (by omega : 1 < 4)
  have h2 := align_add_lt addr (by omega : 2 < 4)
  have h3 := align_add_lt addr (by omega : 3 < 4)
  exact Memory.wf_put _ (Memory.wf_put _ (Memory.wf_put _ (Memory.wf_put _ hm h0) h1) h2) h3

/-! ### Bytes and half words -/

/-- The byte at an address is the cell of its lane. -/
theorem Memory.byte_eq_get (m : Memory) (big : Bool) (addr : Word) :
    m.byte big addr = m.get ((align addr).toNat + byteLane big addr) :=
  Memory.field_word _ _ (byteLane_lt big addr)

theorem Memory.wf_putByte {m : Memory} (big : Bool) (addr : Word) (v : Byte) (hm : m.wf = true) :
    (m.putByte big addr v).wf = true :=
  Memory.wf_put _ hm (align_add_lt addr (byteLane_lt big addr))

theorem Memory.wf_putHalf {m : Memory} (big : Bool) (addr : Word) (v : Half) (hm : m.wf = true) :
    (m.putHalf big addr v).wf = true := by
  have hl := halfLane_lt big addr
  have h0 := align_add_lt addr (by omega : 2 * halfLane big addr < 4)
  have h1 := align_add_lt addr (by omega : 2 * halfLane big addr + 1 < 4)
  exact Memory.wf_put _ (Memory.wf_put _ hm h0) (by omega)

/-- Different byte addresses select different cells, whatever the byte order. -/
theorem byte_cell_ne {x y : Word} (h : x ≠ y) (big : Bool) :
    (align x).toNat + byteLane big x ≠ (align y).toNat + byteLane big y := by
  intro e
  apply h
  apply BitVec.eq_of_toNat_eq
  have h1 := align_toNat x
  have h2 := align_toNat y
  have h3 := field_low_toNat x
  have h4 := field_low_toNat y
  unfold byteLane at e
  cases big <;> simp at e <;> omega

/-- A byte reads back what was written. -/
theorem Memory.byte_putByte_self (m : Memory) (big : Bool) (addr : Word) (v : Byte) :
    (m.putByte big addr v).byte big addr = v := by
  rw [Memory.byte_eq_get, Memory.putByte, Memory.get_put_self]

/-- Every other byte is unchanged. -/
theorem Memory.byte_putByte_ne (m : Memory) (big : Bool) {x addr : Word} (h : x ≠ addr) (v : Byte) :
    (m.putByte big addr v).byte big x = m.byte big x := by
  rw [Memory.byte_eq_get, Memory.byte_eq_get, Memory.putByte, Memory.get_put_ne _ (byte_cell_ne h big)]

end Sys2Proof.Machine
end

