-- ==== Sys2Proof/Laws/Ops.lean ====
section
/-! SUPPORT. For each shared operation, one lemma that says once what a next state of it can be; cite these instead of
unfolding the operation. -/

namespace Sys2Proof.Machine

/-! ### How an instruction ends -/

@[simp] theorem raise_eq_next (f : Fault) (s' : State) : (raise f = .next s') ↔ False := by simp [raise]

theorem advance_next {s s' : State} :
    advance s = .next s' ↔ s.pc ≠ 0xFFFFFFFC#32 ∧ s' = { s with pc := s.pc + 4#32 } := by
  unfold advance
  split
  · rename_i h; simp [h]
  · rename_i h; simp [h, eq_comm]

theorem complete_next {s s' : State} : complete s = .next s' ↔ s.pc ≠ 0xFFFFFFFC#32 ∧ s' = s.done := advance_next

/-- Away from the top of the address space an instruction that has done its work completes (R24). -/
theorem complete_eq {s : State} (h : s.pc ≠ 0xFFFFFFFC#32) : complete s = .next s.done := complete_next.2 ⟨h, rfl⟩

theorem advance_eq {s : State} (h : s.pc ≠ 0xFFFFFFFC#32) : advance s = .next { s with pc := s.pc + 4#32 } :=
  advance_next.2 ⟨h, rfl⟩

theorem perform_next {i : Instr} {rule : Word → State → Out} {s s' : State} :
    perform i rule s = .next s' ↔
      i.wellFormed = true ∧
        ((conditionPassed i.cond s.cpsr = true ∧ rule (encode i) s = .next s') ∨
          (conditionPassed i.cond s.cpsr = false ∧ complete s = .next s')) := by
  unfold perform
  cases i.wellFormed <;> cases conditionPassed i.cond s.cpsr <;> simp

/-- A ready instruction runs its own rule. -/
theorem perform_eq_rule {i : Instr} {rule : Word → State → Out} {s : State} (h : Ready i s) :
    perform i rule s = rule (encode i) s := by simp [perform, h.1, h.2.1]

theorem privileged_next {word : Word} {s s' : State} {k : Out} :
    privileged word s k = .next s' ↔ s.cpsr.mode.privileged = true ∧ k = .next s' := by
  unfold privileged; split <;> simp [*]

theorem checked_next {word : Word} {t : Transfer} {k : Out} {s' : State} :
    checked word t k = .next s' ↔ t.clash word = none ∧ k = .next s' := by
  unfold checked; split <;> simp [*]

theorem swapChecked_next {word : Word} {rn rd rm : Reg} {k : Out} {s' : State} :
    swapChecked word rn rd rm k = .next s' ↔ (rn ≠ rd ∧ rn ≠ rm) ∧ k = .next s' := by
  unfold swapChecked; split
  · rename_i h; simp; intro h1 h2; rcases h with h | h <;> contradiction
  · rename_i h; simp only [not_or] at h; simp [h]

theorem settled_next {s s' : State} {k : Out} : settled s k = .next s' ↔ s.bSettle = 0 ∧ k = .next s' := by
  unfold settled; split
  · rename_i h; simp; omega
  · rename_i h; have : s.bSettle = 0 := by omega
    simp [this]

theorem loading_next {s s' : State} {addr : Word} {k : Out} :
    loading s addr k = .next s' ↔ s.mapped addr = true ∧ k = .next s' := by
  unfold loading; split <;> simp [*]

theorem storing_next {s s' : State} {addr : Word} {k : Out} :
    storing s addr k = .next s' ↔ (s.mapped addr = true ∧ s.inText addr = false) ∧ k = .next s' := by
  unfold storing; split
  · split <;> simp [*]
  · simp [*]

theorem halfIndexed_next {word : Word} {p w : Bool} {k : Index → Out} {s' : State} :
    halfIndexed word p w k = .next s' ↔ ∃ x, Index.ofPW p w = some x ∧ k x = .next s' := by
  unfold halfIndexed; split <;> simp [*]

/-- What makes the operand combination of a transfer admissible (R101, R104). -/
theorem Transfer.clash_eq_none {t : Transfer} {word : Word} :
    t.clash word = none ↔ (t.index.writesBack = true → t.rn ≠ t.rd ∧ t.rm ≠ some t.rn) := by
  unfold Transfer.clash
  cases t.index.writesBack <;> by_cases h1 : t.rn = t.rd <;> by_cases h2 : t.rm = some t.rn <;> simp [h1, h2]

/-! ### Transfers -/

theorem loadWord_next {t : Transfer} {word : Word} {s s' : State} :
    loadWord t word s = .next s' ↔
      t.clash word = none ∧ s.mapped (t.addr s) = true ∧ s.pc ≠ 0xFFFFFFFC#32 ∧
        s' = ((t.writeBack s).setReg t.rd (ror32 (s.word (t.addr s)) (loadRotation (t.addr s)))).done := by
  simp [loadWord, checked_next, loading_next, complete_next]

theorem storeWord_next {t : Transfer} {word : Word} {s s' : State} :
    storeWord t word s = .next s' ↔
      t.clash word = none ∧ (s.mapped (t.addr s) = true ∧ s.inText (t.addr s) = false) ∧ s.pc ≠ 0xFFFFFFFC#32 ∧
        s' = (t.writeBack (s.setWord (t.addr s) (s.reg t.rd))).done := by
  simp [storeWord, checked_next, storing_next, complete_next]

theorem loadByte_next {t : Transfer} {word : Word} {s s' : State} :
    loadByte t word s = .next s' ↔
      t.clash word = none ∧ s.bSettle = 0 ∧ s.mapped (t.addr s) = true ∧ s.pc ≠ 0xFFFFFFFC#32 ∧
        s' = ((t.writeBack s).setReg t.rd ((s.byte (t.addr s)).setWidth 32)).didSubword.done := by
  simp [loadByte, checked_next, settled_next, loading_next, complete_next]

theorem storeByte_next {t : Transfer} {word : Word} {s s' : State} :
    storeByte t word s = .next s' ↔
      t.clash word = none ∧ s.bSettle = 0 ∧ (s.mapped (t.addr s) = true ∧ s.inText (t.addr s) = false) ∧
        s.pc ≠ 0xFFFFFFFC#32 ∧
        s' = (t.writeBack (s.setByte (t.addr s) ((s.reg t.rd).setWidth 8))).didSubword.done := by
  simp [storeByte, checked_next, settled_next, storing_next, complete_next]

theorem loadHalf_next {t : Transfer} {word : Word} {s s' : State} :
    loadHalf t word s = .next s' ↔
      t.clash word = none ∧ s.bSettle = 0 ∧ s.mapped (t.addr s) = true ∧ s.pc ≠ 0xFFFFFFFC#32 ∧
        s' = (if bit (t.addr s) 0 then
            ((t.writeBack s).setReg t.rd (Config.freeWord s.drawn)).draw.didSubword
          else ((t.writeBack s).setReg t.rd ((s.half (t.addr s)).setWidth 32)).didSubword).done := by
  cases h : bit (t.addr s) 0 <;>
    simp [loadHalf, h, checked_next, settled_next, loading_next, complete_next]

theorem storeHalf_next {t : Transfer} {word : Word} {s s' : State} :
    storeHalf t word s = .next s' ↔
      t.clash word = none ∧ s.bSettle = 0 ∧ (s.mapped (t.addr s) = true ∧ s.inText (t.addr s) = false) ∧
        s.pc ≠ 0xFFFFFFFC#32 ∧
        s' = (if bit (t.addr s) 0 then
            (t.writeBack (s.setWord (t.addr s) (Config.freeWord s.drawn))).draw.didSubword
          else (t.writeBack (s.setHalf (t.addr s) ((s.reg t.rd).setWidth 16))).didSubword).done := by
  cases h : bit (t.addr s) 0 <;>
    simp [storeHalf, h, checked_next, settled_next, storing_next, complete_next]

theorem swapWord_next {rn rd rm : Reg} {word : Word} {s s' : State} :
    swapWord rn rd rm word s = .next s' ↔
      (rn ≠ rd ∧ rn ≠ rm) ∧ (s.mapped (s.reg rn) = true ∧ s.inText (s.reg rn) = false) ∧ s.pc ≠ 0xFFFFFFFC#32 ∧
        s' = ((s.setWord (s.reg rn) (s.reg rm)).setReg rd (ror32 (s.word (s.reg rn)) (loadRotation (s.reg rn)))).done := by
  simp [swapWord, swapAddr, swapChecked_next, storing_next, complete_next]

theorem swapByte_next {rn rd rm : Reg} {word : Word} {s s' : State} :
    swapByte rn rd rm word s = .next s' ↔
      (rn ≠ rd ∧ rn ≠ rm) ∧ s.bSettle = 0 ∧ (s.mapped (s.reg rn) = true ∧ s.inText (s.reg rn) = false) ∧
        s.pc ≠ 0xFFFFFFFC#32 ∧
        s' = ((s.setByte (s.reg rn) ((s.reg rm).setWidth 8)).setReg rd
          ((s.byte (s.reg rn)).setWidth 32)).didSubword.done := by
  simp [swapByte, swapAddr, swapChecked_next, settled_next, storing_next, complete_next]

/-! ### The configuration instructions -/

theorem orr_next {f : Bool} {rn rd : Reg} {operand : Word × Bool} {s s' : State} :
    orr f rn rd operand s = .next s' ↔
      s.pc ≠ 0xFFFFFFFC#32 ∧
        s' = ({ s with cpsr := if f then s.cpsr.withResult (s.reg rn ||| operand.1) operand.2 else s.cpsr }.setReg rd
          (s.reg rn ||| operand.1)).done := by
  simp [orr, complete_next]

/-- A write of the Control Register completes only if no bit but `B` changes, and then either `B` does not change, or
no sub-word access has been done (R132 to R134). -/
theorem writeControl_next {v word : Word} {s s' : State} :
    writeControl v word s = .next s' ↔
      otherBitsDiffer v s.control = false ∧ s.pc ≠ 0xFFFFFFFC#32 ∧
        ((bit v 7 = bit s.control 7 ∧ s' = { s with control := v }.done) ∨
          (bit v 7 ≠ bit s.control 7 ∧ s.subwordDone = false ∧
            s' = { s with control := v, bSettle := s.platform.bEffectDelay, pc := s.pc + 4#32 })) := by
  unfold writeControl
  cases otherBitsDiffer v s.control with
  | true => simp
  | false =>
    cases hb : bit v 7 <;> cases hc : bit s.control 7 <;> cases hd : s.subwordDone <;>
      simp [complete_next, advance_next]

/-! ### Instructions and steps -/

/-- The rule each instruction runs once it is ready. -/
def rule : Instr → Word → State → Out
  | .orrImm _ f rn rd r k => fun _ t => orr f rn rd (immediateOperand r k t.cpsr.c) t
  | .orrShiftImm _ f rn rd n sh rm => fun _ t => orr f rn rd (shiftByImmediate (t.reg rm) sh n t.cpsr.c) t
  | .orrShiftReg _ f rn rd rs sh rm =>
    fun _ t => orr f rn rd (shiftByRegister (t.reg rm) sh ((t.reg rs).setWidth 8) t.cpsr.c) t
  | .ldrImm _ u w rn rd off => loadWord (immTransfer (.ofW w) u rn rd off)
  | .ldrImmPost _ u rn rd off => loadWord (immTransfer .postIndexed u rn rd off)
  | .ldrReg _ u w rn rd n sh rm => fun x t => loadWord (regTransfer t (.ofW w) u rn rd n sh rm) x t
  | .ldrRegPost _ u rn rd n sh rm => fun x t => loadWord (regTransfer t .postIndexed u rn rd n sh rm) x t
  | .strImm _ u w rn rd off => storeWord (immTransfer (.ofW w) u rn rd off)
  | .strImmPost _ u rn rd off => storeWord (immTransfer .postIndexed u rn rd off)
  | .strReg _ u w rn rd n sh rm => fun x t => storeWord (regTransfer t (.ofW w) u rn rd n sh rm) x t
  | .strRegPost _ u rn rd n sh rm => fun x t => storeWord (regTransfer t .postIndexed u rn rd n sh rm) x t
  | .ldrbImm _ u w rn rd off => loadByte (immTransfer (.ofW w) u rn rd off)
  | .ldrbImmPost _ u rn rd off => loadByte (immTransfer .postIndexed u rn rd off)
  | .ldrbReg _ u w rn rd n sh rm => fun x t => loadByte (regTransfer t (.ofW w) u rn rd n sh rm) x t
  | .ldrbRegPost _ u rn rd n sh rm => fun x t => loadByte (regTransfer t .postIndexed u rn rd n sh rm) x t
  | .strbImm _ u w rn rd off => storeByte (immTransfer (.ofW w) u rn rd off)
  | .strbImmPost _ u rn rd off => storeByte (immTransfer .postIndexed u rn rd off)
  | .strbReg _ u w rn rd n sh rm => fun x t => storeByte (regTransfer t (.ofW w) u rn rd n sh rm) x t
  | .strbRegPost _ u rn rd n sh rm => fun x t => storeByte (regTransfer t .postIndexed u rn rd n sh rm) x t
  | .ldrhImm _ p u w rn rd h l => fun x t => halfIndexed x p w fun y => loadHalf (halfImmTransfer y u rn rd h l) x t
  | .ldrhReg _ p u w rn rd rm => fun x t => halfIndexed x p w fun y => loadHalf (halfRegTransfer t y u rn rd rm) x t
  | .strhImm _ p u w rn rd h l => fun x t => halfIndexed x p w fun y => storeHalf (halfImmTransfer y u rn rd h l) x t
  | .strhReg _ p u w rn rd rm => fun x t => halfIndexed x p w fun y => storeHalf (halfRegTransfer t y u rn rd rm) x t
  | .swp _ rn rd rm => swapWord rn rd rm
  | .swpb _ rn rd rm => swapByte rn rd rm
  | .mrc _ rd => fun x t => privileged x t (complete (t.setReg rd t.control))
  | .mcr _ rd => fun x t => privileged x t (writeControl (t.reg rd) x t)

/-- Every instruction performs its rule. -/
theorem exec_eq_perform (i : Instr) (s : State) : exec i s = perform i (rule i) s := by cases i <;> rfl

/-- What a next state of an instruction can be: its rule's, or that of a failed condition (R93). -/
theorem exec_next {i : Instr} {s s' : State} :
    exec i s = .next s' ↔
      i.wellFormed = true ∧
        ((conditionPassed i.cond s.cpsr = true ∧ rule i (encode i) s = .next s') ∨
          (conditionPassed i.cond s.cpsr = false ∧ s.pc ≠ 0xFFFFFFFC#32 ∧ s' = s.done)) := by
  rw [exec_eq_perform, perform_next, complete_next]

/-- A step that answers a next state ran a decoded instruction (R15). -/
theorem step_next {s s' : State} :
    step s = .next s' ↔
      s.pc ∉ s.platform.halt ∧ s.cpsr.t = false ∧
        ∃ word i, fetch s = some word ∧ decode word = .instr i ∧ exec i s = .next s' := by
  unfold step
  split
  · simp [*]
  · split
    · simp [*]
    · rename_i h1 h2
      simp only [h1, h2, not_false_eq_true, true_and]
      cases fetch s with
      | none => simp
      | some word => cases h : decode word <;> simp [h]

end Sys2Proof.Machine
end

