-- ==== Sys2Proof/Laws/PerInstr.lean ====
section
/-! SUPPORT. Facts about every instruction as syntax, one lemma per constructor. -/

namespace Sys2Proof.Laws.CondField

/-- Bits [31:28] of an instruction's word are its condition (spec/30_encoding.md R90). -/
def Statement (i : Instr) : Prop := field (encode i) 28 4 = i.cond.code

/-- The condition field of the bits that formats share. -/
theorem field_encodeCommon (c : Cond) (rn rd : Reg) : field (encodeCommon c rn rd) 28 4 = c.code := by
  simp (disch := omega) [encodeCommon, field_or, field_place_self, field_place_above]

theorem field_encodeTransfer (c : Cond) (cls : BitVec 3) (p u b w l : Bool) (rn rd : Reg) :
    field (encodeTransfer c cls p u b w l rn rd) 28 4 = c.code := by
  simp (disch := omega) [encodeTransfer, field_or, field_encodeCommon, placeBit, field_place_above]

theorem field_encodeOrr (c : Cond) (cls : BitVec 3) (s : Bool) (rn rd : Reg) :
    field (encodeOrr c cls s rn rd) 28 4 = c.code := by
  simp (disch := omega) [encodeOrr, field_or, field_encodeCommon, placeBit, field_place_above]

theorem field_encodeShifted (n : BitVec 5) (sh : Shift) (rm : Reg) : field (encodeShifted n sh rm) 28 4 = 0#4 := by
  simp (disch := omega) [encodeShifted, field_or, field_place_above]

theorem orrImm (cond : Cond) (s : Bool) (rn rd : Reg) (rotateImm : BitVec 4) (immed8 : BitVec 8) :
    Statement (.orrImm cond s rn rd rotateImm immed8) := by
  simp (disch := omega) [Statement, Instr.cond, encode, field_or, field_encodeOrr, field_place_above]

theorem orrShiftImm (cond : Cond) (s : Bool) (rn rd : Reg) (shiftImm : BitVec 5) (shift : Shift) (rm : Reg) :
    Statement (.orrShiftImm cond s rn rd shiftImm shift rm) := by
  simp (disch := omega) [Statement, Instr.cond, encode, field_or, field_encodeOrr, field_encodeShifted]

theorem orrShiftReg (cond : Cond) (s : Bool) (rn rd rs : Reg) (shift : Shift) (rm : Reg) :
    Statement (.orrShiftReg cond s rn rd rs shift rm) := by
  simp (disch := omega) [Statement, Instr.cond, encode, field_or, field_encodeOrr, placeBit, field_place_above]

theorem ldrImm (cond : Cond) (u w : Bool) (rn rd : Reg) (offset12 : BitVec 12) :
    Statement (.ldrImm cond u w rn rd offset12) := by
  simp (disch := omega) [Statement, Instr.cond, encode, encodeLoadStoreImm, field_or, field_encodeTransfer, field_place_above]

theorem ldrImmPost (cond : Cond) (u : Bool) (rn rd : Reg) (offset12 : BitVec 12) :
    Statement (.ldrImmPost cond u rn rd offset12) := by
  simp (disch := omega) [Statement, Instr.cond, encode, encodeLoadStoreImm, field_or, field_encodeTransfer, field_place_above]

theorem ldrReg (cond : Cond) (u w : Bool) (rn rd : Reg) (shiftImm : BitVec 5) (shift : Shift) (rm : Reg) :
    Statement (.ldrReg cond u w rn rd shiftImm shift rm) := by
  simp (disch := omega) [Statement, Instr.cond, encode, encodeLoadStoreReg, field_or, field_encodeTransfer, field_encodeShifted]

theorem ldrRegPost (cond : Cond) (u : Bool) (rn rd : Reg) (shiftImm : BitVec 5) (shift : Shift) (rm : Reg) :
    Statement (.ldrRegPost cond u rn rd shiftImm shift rm) := by
  simp (disch := omega) [Statement, Instr.cond, encode, encodeLoadStoreReg, field_or, field_encodeTransfer, field_encodeShifted]

theorem strImm (cond : Cond) (u w : Bool) (rn rd : Reg) (offset12 : BitVec 12) :
    Statement (.strImm cond u w rn rd offset12) := by
  simp (disch := omega) [Statement, Instr.cond, encode, encodeLoadStoreImm, field_or, field_encodeTransfer, field_place_above]

theorem strImmPost (cond : Cond) (u : Bool) (rn rd : Reg) (offset12 : BitVec 12) :
    Statement (.strImmPost cond u rn rd offset12) := by
  simp (disch := omega) [Statement, Instr.cond, encode, encodeLoadStoreImm, field_or, field_encodeTransfer, field_place_above]

theorem strReg (cond : Cond) (u w : Bool) (rn rd : Reg) (shiftImm : BitVec 5) (shift : Shift) (rm : Reg) :
    Statement (.strReg cond u w rn rd shiftImm shift rm) := by
  simp (disch := omega) [Statement, Instr.cond, encode, encodeLoadStoreReg, field_or, field_encodeTransfer, field_encodeShifted]

theorem strRegPost (cond : Cond) (u : Bool) (rn rd : Reg) (shiftImm : BitVec 5) (shift : Shift) (rm : Reg) :
    Statement (.strRegPost cond u rn rd shiftImm shift rm) := by
  simp (disch := omega) [Statement, Instr.cond, encode, encodeLoadStoreReg, field_or, field_encodeTransfer, field_encodeShifted]

theorem ldrbImm (cond : Cond) (u w : Bool) (rn rd : Reg) (offset12 : BitVec 12) :
    Statement (.ldrbImm cond u w rn rd offset12) := by
  simp (disch := omega) [Statement, Instr.cond, encode, encodeLoadStoreImm, field_or, field_encodeTransfer, field_place_above]

theorem ldrbImmPost (cond : Cond) (u : Bool) (rn rd : Reg) (offset12 : BitVec 12) :
    Statement (.ldrbImmPost cond u rn rd offset12) := by
  simp (disch := omega) [Statement, Instr.cond, encode, encodeLoadStoreImm, field_or, field_encodeTransfer, field_place_above]

theorem ldrbReg (cond : Cond) (u w : Bool) (rn rd : Reg) (shiftImm : BitVec 5) (shift : Shift) (rm : Reg) :
    Statement (.ldrbReg cond u w rn rd shiftImm shift rm) := by
  simp (disch := omega) [Statement, Instr.cond, encode, encodeLoadStoreReg, field_or, field_encodeTransfer, field_encodeShifted]

theorem ldrbRegPost (cond : Cond) (u : Bool) (rn rd : Reg) (shiftImm : BitVec 5) (shift : Shift) (rm : Reg) :
    Statement (.ldrbRegPost cond u rn rd shiftImm shift rm) := by
  simp (disch := omega) [Statement, Instr.cond, encode, encodeLoadStoreReg, field_or, field_encodeTransfer, field_encodeShifted]

theorem strbImm (cond : Cond) (u w : Bool) (rn rd : Reg) (offset12 : BitVec 12) :
    Statement (.strbImm cond u w rn rd offset12) := by
  simp (disch := omega) [Statement, Instr.cond, encode, encodeLoadStoreImm, field_or, field_encodeTransfer, field_place_above]

theorem strbImmPost (cond : Cond) (u : Bool) (rn rd : Reg) (offset12 : BitVec 12) :
    Statement (.strbImmPost cond u rn rd offset12) := by
  simp (disch := omega) [Statement, Instr.cond, encode, encodeLoadStoreImm, field_or, field_encodeTransfer, field_place_above]

theorem strbReg (cond : Cond) (u w : Bool) (rn rd : Reg) (shiftImm : BitVec 5) (shift : Shift) (rm : Reg) :
    Statement (.strbReg cond u w rn rd shiftImm shift rm) := by
  simp (disch := omega) [Statement, Instr.cond, encode, encodeLoadStoreReg, field_or, field_encodeTransfer, field_encodeShifted]

theorem strbRegPost (cond : Cond) (u : Bool) (rn rd : Reg) (shiftImm : BitVec 5) (shift : Shift) (rm : Reg) :
    Statement (.strbRegPost cond u rn rd shiftImm shift rm) := by
  simp (disch := omega) [Statement, Instr.cond, encode, encodeLoadStoreReg, field_or, field_encodeTransfer, field_encodeShifted]

theorem ldrhImm (cond : Cond) (p u w : Bool) (rn rd : Reg) (immedH immedL : BitVec 4) :
    Statement (.ldrhImm cond p u w rn rd immedH immedL) := by
  simp (disch := omega) [Statement, Instr.cond, encode, encodeHalf, field_or, field_encodeTransfer, field_place_above]

theorem ldrhReg (cond : Cond) (p u w : Bool) (rn rd rm : Reg) :
    Statement (.ldrhReg cond p u w rn rd rm) := by
  simp (disch := omega) [Statement, Instr.cond, encode, encodeHalf, field_or, field_encodeTransfer, field_place_above]

theorem strhImm (cond : Cond) (p u w : Bool) (rn rd : Reg) (immedH immedL : BitVec 4) :
    Statement (.strhImm cond p u w rn rd immedH immedL) := by
  simp (disch := omega) [Statement, Instr.cond, encode, encodeHalf, field_or, field_encodeTransfer, field_place_above]

theorem strhReg (cond : Cond) (p u w : Bool) (rn rd rm : Reg) :
    Statement (.strhReg cond p u w rn rd rm) := by
  simp (disch := omega) [Statement, Instr.cond, encode, encodeHalf, field_or, field_encodeTransfer, field_place_above]

theorem swp (cond : Cond) (rn rd rm : Reg) :
    Statement (.swp cond rn rd rm) := by
  simp (disch := omega) [Statement, Instr.cond, encode, encodeSwap, field_or, field_encodeCommon, placeBit, field_place_above]

theorem swpb (cond : Cond) (rn rd rm : Reg) :
    Statement (.swpb cond rn rd rm) := by
  simp (disch := omega) [Statement, Instr.cond, encode, encodeSwap, field_or, field_encodeCommon, placeBit, field_place_above]

theorem mrc (cond : Cond) (rd : Reg) :
    Statement (.mrc cond rd) := by
  simp (disch := omega) [Statement, Instr.cond, encode, encodeCoprocessor, field_or, field_encodeCommon, placeBit, field_place_above]

theorem mcr (cond : Cond) (rd : Reg) :
    Statement (.mcr cond rd) := by
  simp (disch := omega) [Statement, Instr.cond, encode, encodeCoprocessor, field_or, field_encodeCommon, placeBit, field_place_above]

end Sys2Proof.Laws.CondField
end

