-- ==== Sys2Proof/Tests/Slice0.lean ====
section
/-! SUPPORT. The model's own tests: ill-formed terms refused, words written out from the formats decoded and encoded,
one step on small states (expected values from spec/95_test_vectors.md, named by vector), and a witness for the
hypotheses of each statement. -/

namespace Sys2Proof.Tests

open Machine

set_option Elab.async false

/-! ### Small states -/

/-- Reset, with the byte order, some registers and some words of memory set. -/
def start (big : Bool) (xs : List (Reg × Word)) (ws : List (Word × Word)) : State :=
  let s := { State.reset with control := if big then 0x000000F8#32 else 0x00000078#32 }
  ws.foldl (fun t e => t.setWord e.1 e.2) (xs.foldl (fun t e => t.setReg e.1 e.2) s)

/-- `N`, `Z`, `C`, `V` as one number, as the vectors write them. -/
def nzcv (s : State) : Bool × Bool × Bool × Bool := (s.cpsr.n, s.cpsr.z, s.cpsr.c, s.cpsr.v)

def withFlags (s : State) (n z c v : Bool) : State := { s with cpsr := { s.cpsr with n := n, z := z, c := c, v := v } }

/-- The state with the instruction word `w` at `pc = 0x8000`. -/
def loaded (s : State) (w : Word) : State := { s with pc := 0x00008000#32 }.setWord 0x00008000#32 w

/-- What `f` sees after one step on the word `w`, if the step answers a next state. -/
def seen {α : Type} (w : Word) (s : State) (f : State → α) : Option α :=
  match step (loaded s w) with
  | .next t => some (f t)
  | _ => none

/-- The fault of one step on the word `w`. -/
def faulted (w : Word) (s : State) : Option Fault :=
  match step (loaded s w) with
  | .fault r => some r
  | _ => none

/-- The refusal of one step on the word `w`. -/
def turnedAway (w : Word) (s : State) : Option Refusal :=
  match step (loaded s w) with
  | .refused r => some r
  | _ => none

/-- The next state, or the state itself where there is none. -/
def after (i : Instr) (s : State) : State :=
  match exec i s with
  | .next t => t
  | _ => s

/-- The instruction answers a next state. -/
def goesOn (i : Instr) (s : State) : Bool :=
  match exec i s with
  | .next _ => true
  | _ => false

theorem exec_of_goesOn {i : Instr} {s : State} (h : goesOn i s = true) : exec i s = .next (after i s) := by
  unfold goesOn at h
  unfold after
  cases hx : exec i s <;> simp [hx] at h ⊢

/-! ### WellFormed: a register field of 15 is refused -/

theorem test_wellFormed_refuses_rn_orrImm : Instr.wellFormed (.orrImm .al false 15 0 0 1) = false := by decide

theorem test_wellFormed_refuses_rd_ldrImm : Instr.wellFormed (.ldrImm .al true false 1 15 0) = false := by decide

theorem test_wellFormed_refuses_rm_strReg : Instr.wellFormed (.strReg .al true false 1 2 0 .lsl 15) = false := by decide

theorem test_wellFormed_refuses_rs_orrShiftReg : Instr.wellFormed (.orrShiftReg .al true 1 2 15 .lsl 3) = false := by decide

theorem test_wellFormed_refuses_rd_mrc : Instr.wellFormed (.mrc .al 15) = false := by decide

theorem test_wellFormed_refuses_rn_swp : Instr.wellFormed (.swp .al 15 1 2) = false := by decide

/-! ### Every constructor's word, written out from its format, decodes to it and is its encoding

The left column of each word is `cond`, then the bits of the format in the order of spec/30_encoding.md R94, R98,
R102, R105 and R106. -/

/-- O2, 0xE39004FF. -/
theorem test_word_orrImm :
    decode 0b1110_001_1100_1_0000_0000_0100_11111111#32 = .instr (.orrImm .al true 0 0 4 0xFF) ∧ encode (.orrImm .al true 0 0 4 0xFF) = 0b1110_001_1100_1_0000_0000_0100_11111111#32 := by decide

/-- O4, 0xE1965405. -/
theorem test_word_orrShiftImm :
    decode 0b1110_000_1100_1_0110_0101_01000_00_0_0101#32 = .instr (.orrShiftImm .al true 6 5 8 .lsl 5) ∧ encode (.orrShiftImm .al true 6 5 8 .lsl 5) = 0b1110_000_1100_1_0110_0101_01000_00_0_0101#32 := by decide

/-- O10, 0xE1821473. -/
theorem test_word_orrShiftReg :
    decode 0b1110_000_1100_0_0010_0001_0100_0_11_1_0011#32 = .instr (.orrShiftReg .al false 2 1 4 .ror 3) ∧ encode (.orrShiftReg .al false 2 1 4 .ror 3) = 0b1110_000_1100_0_0010_0001_0100_0_11_1_0011#32 := by decide

/-- 0xE59A6002. -/
theorem test_word_ldrImm :
    decode 0b1110_010_1_1_0_0_1_1010_0110_000000000010#32 = .instr (.ldrImm .al true false 10 6 2) ∧ encode (.ldrImm .al true false 10 6 2) = 0b1110_010_1_1_0_0_1_1010_0110_000000000010#32 := by decide

/-- W3, 0xE49A4004. -/
theorem test_word_ldrImmPost :
    decode 0b1110_010_0_1_0_0_1_1010_0100_000000000100#32 = .instr (.ldrImmPost .al true 10 4 4) ∧ encode (.ldrImmPost .al true 10 4 4) = 0b1110_010_0_1_0_0_1_1010_0100_000000000100#32 := by decide

/-- W1, 0xE7121103. -/
theorem test_word_ldrReg :
    decode 0b1110_011_1_0_0_0_1_0010_0001_00010_00_0_0011#32 = .instr (.ldrReg .al false false 2 1 2 .lsl 3) ∧ encode (.ldrReg .al false false 2 1 2 .lsl 3) = 0b1110_011_1_0_0_0_1_0010_0001_00010_00_0_0011#32 := by decide

/-- R98. -/
theorem test_word_ldrRegPost :
    decode 0b0001_011_0_1_0_0_1_0010_0001_00011_10_0_0101#32 = .instr (.ldrRegPost .ne true 2 1 3 .asr 5) ∧ encode (.ldrRegPost .ne true 2 1 3 .asr 5) = 0b0001_011_0_1_0_0_1_0010_0001_00011_10_0_0101#32 := by decide

/-- W2, 0xE52A4004. -/
theorem test_word_strImm :
    decode 0b1110_010_1_0_0_1_0_1010_0100_000000000100#32 = .instr (.strImm .al false true 10 4 4) ∧ encode (.strImm .al false true 10 4 4) = 0b1110_010_1_0_0_1_0_1010_0100_000000000100#32 := by decide

/-- R98. -/
theorem test_word_strImmPost :
    decode 0b1110_010_0_0_0_0_0_1010_0100_000000001000#32 = .instr (.strImmPost .al false 10 4 8) ∧ encode (.strImmPost .al false 10 4 8) = 0b1110_010_0_0_0_0_0_1010_0100_000000001000#32 := by decide

/-- R98. -/
theorem test_word_strReg :
    decode 0b1110_011_1_1_0_1_0_0011_0110_11111_01_0_1001#32 = .instr (.strReg .al true true 3 6 31 .lsr 9) ∧ encode (.strReg .al true true 3 6 31 .lsr 9) = 0b1110_011_1_1_0_1_0_0011_0110_11111_01_0_1001#32 := by decide

/-- R98. -/
theorem test_word_strRegPost :
    decode 0b1010_011_0_0_0_0_0_0011_0110_00001_11_0_1001#32 = .instr (.strRegPost .ge false 3 6 1 .ror 9) ∧ encode (.strRegPost .ge false 3 6 1 .ror 9) = 0b1010_011_0_0_0_0_0_0011_0110_00001_11_0_1001#32 := by decide

/-- 0xE5DA7003. -/
theorem test_word_ldrbImm :
    decode 0b1110_010_1_1_1_0_1_1010_0111_000000000011#32 = .instr (.ldrbImm .al true false 10 7 3) ∧ encode (.ldrbImm .al true false 10 7 3) = 0b1110_010_1_1_1_0_1_1010_0111_000000000011#32 := by decide

/-- B1, 0xE4DA5001. -/
theorem test_word_ldrbImmPost :
    decode 0b1110_010_0_1_1_0_1_1010_0101_000000000001#32 = .instr (.ldrbImmPost .al true 10 5 1) ∧ encode (.ldrbImmPost .al true 10 5 1) = 0b1110_010_0_1_1_0_1_1010_0101_000000000001#32 := by decide

/-- R98. -/
theorem test_word_ldrbReg :
    decode 0b1110_011_1_0_1_1_1_0001_0010_00000_11_0_0011#32 = .instr (.ldrbReg .al false true 1 2 0 .ror 3) ∧ encode (.ldrbReg .al false true 1 2 0 .ror 3) = 0b1110_011_1_0_1_1_1_0001_0010_00000_11_0_0011#32 := by decide

/-- R98. -/
theorem test_word_ldrbRegPost :
    decode 0b1110_011_0_1_1_0_1_0001_0010_00100_01_0_0011#32 = .instr (.ldrbRegPost .al true 1 2 4 .lsr 3) ∧ encode (.ldrbRegPost .al true 1 2 4 .lsr 3) = 0b1110_011_0_1_1_0_1_0001_0010_00100_01_0_0011#32 := by decide

/-- B2, 0xE54A4003. -/
theorem test_word_strbImm :
    decode 0b1110_010_1_0_1_0_0_1010_0100_000000000011#32 = .instr (.strbImm .al false false 10 4 3) ∧ encode (.strbImm .al false false 10 4 3) = 0b1110_010_1_0_1_0_0_1010_0100_000000000011#32 := by decide

/-- R98. -/
theorem test_word_strbImmPost :
    decode 0b1110_010_0_1_1_0_0_1010_0100_000000000001#32 = .instr (.strbImmPost .al true 10 4 1) ∧ encode (.strbImmPost .al true 10 4 1) = 0b1110_010_0_1_1_0_0_1010_0100_000000000001#32 := by decide

/-- R98. -/
theorem test_word_strbReg :
    decode 0b1110_011_1_1_1_0_0_1000_0010_00010_10_0_0011#32 = .instr (.strbReg .al true false 8 2 2 .asr 3) ∧ encode (.strbReg .al true false 8 2 2 .asr 3) = 0b1110_011_1_1_1_0_0_1000_0010_00010_10_0_0011#32 := by decide

/-- R98. -/
theorem test_word_strbRegPost :
    decode 0b1110_011_0_0_1_0_0_1000_0010_00000_00_0_0011#32 = .instr (.strbRegPost .al false 8 2 0 .lsl 3) ∧ encode (.strbRegPost .al false 8 2 0 .lsl 3) = 0b1110_011_0_0_1_0_0_1000_0010_00000_00_0_0011#32 := by decide

/-- H3, 0xE15A4FBF. -/
theorem test_word_ldrhImm :
    decode 0b1110_000_1_0_1_0_1_1010_0100_1111_1011_1111#32 = .instr (.ldrhImm .al true false false 10 4 15 15) ∧ encode (.ldrhImm .al true false false 10 4 15 15) = 0b1110_000_1_0_1_0_1_1010_0100_1111_1011_1111#32 := by decide

/-- H1, 0xE01210B3. -/
theorem test_word_ldrhReg :
    decode 0b1110_000_0_0_0_0_1_0010_0001_0000_1011_0011#32 = .instr (.ldrhReg .al false false false 2 1 3) ∧ encode (.ldrhReg .al false false false 2 1 3) = 0b1110_000_0_0_0_0_1_0010_0001_0000_1011_0011#32 := by decide

/-- H2, 0xE1CA41BC. -/
theorem test_word_strhImm :
    decode 0b1110_000_1_1_1_0_0_1010_0100_0001_1011_1100#32 = .instr (.strhImm .al true true false 10 4 1 12) ∧ encode (.strhImm .al true true false 10 4 1 12) = 0b1110_000_1_1_1_0_0_1010_0100_0001_1011_1100#32 := by decide

/-- R102. -/
theorem test_word_strhReg :
    decode 0b1110_000_1_1_0_1_0_1010_0100_0000_1011_0011#32 = .instr (.strhReg .al true true true 10 4 3) ∧ encode (.strhReg .al true true true 10 4 3) = 0b1110_000_1_1_0_1_0_1010_0100_0000_1011_0011#32 := by decide

/-- W12, 0xE1032091. -/
theorem test_word_swp :
    decode 0b1110_00010_0_00_0011_0010_0000_1001_0001#32 = .instr (.swp .al 3 2 1) ∧ encode (.swp .al 3 2 1) = 0b1110_00010_0_00_0011_0010_0000_1001_0001#32 := by decide

/-- B3, 0xE1432091. -/
theorem test_word_swpb :
    decode 0b1110_00010_1_00_0011_0010_0000_1001_0001#32 = .instr (.swpb .al 3 2 1) ∧ encode (.swpb .al 3 2 1) = 0b1110_00010_1_00_0011_0010_0000_1001_0001#32 := by decide

/-- 0xEE110F10. -/
theorem test_word_mrc :
    decode 0b1110_1110_000_1_0001_0000_1111_000_1_0000#32 = .instr (.mrc .al 0) ∧ encode (.mrc .al 0) = 0b1110_1110_000_1_0001_0000_1111_000_1_0000#32 := by decide

/-- 0xEE010F10. -/
theorem test_word_mcr :
    decode 0b1110_1110_000_0_0001_0000_1111_000_1_0000#32 = .instr (.mcr .al 0) ∧ encode (.mcr .al 0) = 0b1110_1110_000_0_0001_0000_1111_000_1_0000#32 := by decide

/-! ### Refused words, by name (spec/95_test_vectors.md 17) -/

theorem test_refused_words :
    [decode 0xE1A00000#32, decode 0xE0800001#32, decode 0xEAFFFFFE#32, decode 0xE12FFF1E#32, decode 0xE10F0000#32,
      decode 0xE0000291#32, decode 0xE8BD8000#32, decode 0xEF000000#32, decode 0xEE000000#32, decode 0xF5D0F000#32,
      decode 0x00000000#32, decode 0xE4BA4004#32, decode 0xE19211B3#32, decode 0xE1DA40D0#32, decode 0xE1432191#32,
      decode 0xEE100F10#32, decode 0xE380F080#32, decode 0xE7921013#32] =
    [.refused .dataProcessingNotOrr, .refused .dataProcessingNotOrr, .refused .branch, .refused .miscellaneousSpace,
      .refused .miscellaneousSpace, .refused .multiplyOrSwapNonzero, .refused .blockTransfer,
      .refused .softwareInterrupt, .refused .coprocessorOperation, .refused .unconditionalSpace,
      .refused .dataProcessingNotOrr, .refused .userTranslation, .refused .nonzeroShouldBeZero,
      .refused .signedOrDoubleTransfer, .refused .multiplyOrSwapNonzero, .refused .coprocessorRegisterNotModelled,
      .refused .r15Operand, .undefined] := by decide

/-! ### One step -/

/-- O2. -/
theorem test_orrImm_flags :
    seen 0xE39004FF#32 (withFlags (start false [(0, 1)] []) false true false true) (fun t => (t.reg 0, nzcv t)) = some (0xFF000001#32, (true, false, true, true)) := by decide +kernel

/-- O13. -/
theorem test_orrImm_condition_fails :
    seen 0x13800080#32 (withFlags (start false [(0, 0x78)] []) false true false false) (fun t => (t.reg 0, t.pc)) = some (0x78#32, 0x8004#32) := by decide +kernel

/-- O4. -/
theorem test_orrShiftImm_flags :
    seen 0xE1965405#32 (withFlags (start false [(5, 0xAA), (6, 0xBB)] []) true true true true) (fun t => (t.reg 5, nzcv t)) = some (0xAABB#32, (false, false, false, true)) := by decide +kernel

/-- O7. -/
theorem test_orrShiftImm_rrx :
    seen 0xE1921063#32 (withFlags (start false [(3, 3)] []) false false true false) (fun t => (t.reg 1, nzcv t)) = some (0x80000001#32, (true, false, true, false)) := by decide +kernel

/-- O10. -/
theorem test_orrShiftReg_low_byte :
    seen 0xE1821473#32 (start false [(2, 0xF), (3, 0x12345678), (4, 0x104)] []) (fun t => t.reg 1) = some 0x8123456F#32 := by decide +kernel

/-- O8. -/
theorem test_orrShiftReg_by_32 :
    seen 0xE1921413#32 (withFlags (start false [(3, 1), (4, 32)] []) false false false false) (fun t => (t.reg 1, nzcv t)) = some (0#32, (false, true, true, false)) := by decide +kernel

/-- R160's worked example. -/
theorem test_ldrImm_rotates :
    seen 0xE59A6002#32 (start true [] [(0, 0xAABBCCDD)]) (fun t => (t.reg 6, t.subwordDone)) = some (0xCCDDAABB#32, false) := by decide +kernel

/-- W10. -/
theorem test_ldrImm_address_top :
    seen 0xE5921001#32 (start true [(2, 0xFFFFFFFE)] [(0xFFFFFFFC, 0xA1B2C3D4)]) (fun t => t.reg 1) = some 0xB2C3D4A1#32 := by decide +kernel

/-- W3. -/
theorem test_ldrImmPost_writes_back :
    seen 0xE49A4004#32 (start false [(10, 0x1003)] [(0x1000, 0x01020304)]) (fun t => (t.reg 4, t.reg 10)) = some (0x02030401#32, 0x1007#32) := by decide +kernel

/-- W4. -/
theorem test_ldrImmPost_clash :
    faulted 0xE49AA004#32 (start false [(10, 0x1000)] []) = some (.unpredictable (.writebackRnRd 0xE49AA004#32)) := by decide +kernel

/-- W1. -/
theorem test_ldrReg_scaled_down :
    seen 0xE7121103#32 (start false [(2, 0x1000), (3, 2)] [(0xFF8, 0x11223344)]) (fun t => t.reg 1) = some 0x11223344#32 := by decide +kernel

/-- W7. -/
theorem test_ldrReg_rrx :
    seen 0xE7921063#32 (withFlags (start false [(3, 1)] [(0x80000000, 0xDEADBEEF)]) false false true false) (fun t => (t.reg 1, t.cpsr.c)) = some (0xDEADBEEF#32, true) := by decide +kernel

/-- By hand from R99, R100: offset ASR #3 of 0xFFFFFFF0 is -2. -/
theorem test_ldrRegPost_adds_asr :
    seen 0x169211C5#32 (start false [(2, 0x1000), (5, 0xFFFFFFF0)] [(0x1000, 7)]) (fun t => (t.reg 1, t.reg 2)) = some (7#32, 0xFFE#32) := by decide +kernel

/-- W2. -/
theorem test_strImm_pre_indexed :
    seen 0xE52A4004#32 (start true [(4, 0xCAFEF00D), (10, 0x1004)] []) (fun t => (t.word 0x1000, t.reg 10)) = some (0xCAFEF00D#32, 0x1000#32) := by decide +kernel

/-- R161: the register goes unrotated to the aligned word. -/
theorem test_strImm_unaligned :
    seen 0xE58B4001#32 (start true [(4, 0x11223344), (11, 4)] []) (fun t => (t.word 4, t.word 8)) = some (0x11223344#32, 0#32) := by decide +kernel

/-- By hand from R99, R161: the base written back is not truncated. -/
theorem test_strImmPost_keeps_low_bits :
    seen 0xE40A4008#32 (start false [(4, 5), (10, 0x1003)] []) (fun t => (t.word 0x1000, t.reg 10)) = some (5#32, 0xFFB#32) := by decide +kernel

/-- By hand from R99, R100: LSR #31 of 0x80000000 is 1. -/
theorem test_strReg_pre_indexed :
    seen 0xE7A36FA9#32 (start false [(3, 0x1003), (6, 9), (9, 0x80000000)] []) (fun t => (t.word 0x1004, t.reg 3)) = some (9#32, 0x1004#32) := by decide +kernel

/-- By hand from R99, R100: ROR #1 of 8 is 4. -/
theorem test_strRegPost_ror :
    seen 0xA60360E9#32 (start false [(3, 0x1000), (6, 9), (9, 8)] []) (fun t => (t.word 0x1000, t.reg 3)) = some (9#32, 0xFFC#32) := by decide +kernel

/-- B6, little endian. -/
theorem test_ldrbImm_little_end :
    seen 0xE5DA4000#32 (start false [] [(0, 0x401)]) (fun t => (t.reg 4, t.subwordDone)) = some (1#32, true) := by decide +kernel

/-- B6, big endian. -/
theorem test_ldrbImm_big_end :
    seen 0xE5DA7003#32 (start true [] [(0, 0x401)]) (fun t => t.reg 7) = some 1#32 := by decide +kernel

/-- B1. -/
theorem test_ldrbImmPost_big_end :
    seen 0xE4DA5001#32 (start true [(10, 0x2003)] [(0x2000, 0x80FF7F01)]) (fun t => (t.reg 5, t.reg 10)) = some (1#32, 0x2004#32) := by decide +kernel

/-- By hand from R99, R100: RRX of 2 with C = 0 is 1. -/
theorem test_ldrbReg_rrx_pre_indexed :
    seen 0xE7712063#32 (start false [(1, 0x1002), (3, 2)] [(0x1000, 0xAABBCCDD)]) (fun t => (t.reg 2, t.reg 1)) = some (0xCC#32, 0x1001#32) := by decide +kernel

/-- By hand from R99, R100: LSR #4 of 0x30 is 3. -/
theorem test_ldrbRegPost_lsr :
    seen 0xE6D12223#32 (start true [(1, 0x1001), (3, 0x30)] [(0x1000, 0xAABBCCDD)]) (fun t => (t.reg 2, t.reg 1)) = some (0xBB#32, 0x1004#32) := by decide +kernel

/-- B2. -/
theorem test_strbImm_both_ends :
    [true, false].map (fun b => seen 0xE54A4003#32 (start b [(4, 0xFFFFFF99), (10, 0x2004)] [(0x2000, 0x11223344)]) (fun t => t.word 0x2000)) =
      [some 0x11993344#32, some 0x11229944#32] := by decide +kernel

/-- By hand from R99, R201. -/
theorem test_strbImmPost :
    seen 0xE4CA4001#32 (start true [(4, 0x12), (10, 0x2000)] []) (fun t => (t.word 0x2000, t.reg 10)) = some (0x12000000#32, 0x2001#32) := by decide +kernel

/-- By hand from R99, R100: ASR #2 of -8 is -2. -/
theorem test_strbReg_asr :
    seen 0xE7C82143#32 (start false [(8, 0x2002), (2, 0x34), (3, 0xFFFFFFF8)] []) (fun t => (t.word 0x2000, t.reg 8)) = some (0x34#32, 0x2002#32) := by decide +kernel

/-- By hand from R99, R201. -/
theorem test_strbRegPost_down :
    seen 0xE6482003#32 (start false [(8, 0x2003), (2, 0x34), (3, 3)] []) (fun t => (t.word 0x2000, t.reg 8)) = some (0x34000000#32, 0x2000#32) := by decide +kernel

/-- H3. -/
theorem test_ldrhImm_both_ends :
    [true, false].map (fun b => seen 0xE15A4FBF#32 (start b [(10, 0x10FF)] [(0x1000, 0xCAFE8765)]) (fun t => t.reg 4)) =
      [some 0xCAFE#32, some 0x8765#32] := by decide +kernel

/-- H4 and U2: the value is free and the rest happens. -/
theorem test_ldrhImm_odd_goes_on :
    seen 0xE0DA40B1#32 (start true [(10, 0x1001)] []) (fun t => (t.reg 10, t.subwordDone, t.drawn, t.pc)) = some (0x1002#32, true, 1, 0x8004#32) := by decide +kernel

/-- H1. -/
theorem test_ldrhReg_post_both_ends :
    [true, false].map (fun b => seen 0xE01210B3#32 (start b [(2, 0x2002), (3, 6)] [(0x2000, 0x8001FFFE)]) (fun t => (t.reg 1, t.reg 2))) =
      [some (0xFFFE#32, 0x1FFC#32), some (0x8001#32, 0x1FFC#32)] := by decide +kernel

/-- H2. -/
theorem test_strhImm_both_ends :
    [true, false].map (fun b => seen 0xE1CA41BC#32 (start b [(4, 0x1234ABCD), (10, 0x1000)] [(0x101C, 0x11111111)]) (fun t => t.word 0x101C)) =
      [some 0xABCD1111#32, some 0x1111ABCD#32] := by decide +kernel

/-- H5. -/
theorem test_strhImm_p0_w1 :
    faulted 0xE0EA40B2#32 (start true [] []) = some (.unpredictable (.halfP0W1 0xE0EA40B2#32)) := by decide +kernel

/-- By hand from R103, R181. -/
theorem test_strhReg_pre_indexed :
    seen 0xE1AA40B3#32 (start true [(4, 0x5678), (10, 0x1000), (3, 2)] []) (fun t => (t.word 0x1000, t.reg 10)) = some (0x5678#32, 0x1002#32) := by decide +kernel

/-- U3: the stored word is free, and the rest, the writeback among it, happens. -/
theorem test_strhReg_odd_goes_on :
    seen 0xE1AA40B3#32 (start true [(4, 0x5678), (10, 0x1000), (3, 3)] [(0x1004, 7)]) (fun t => (t.reg 10, t.drawn, t.subwordDone)) = some (0x1003#32, 1, true) := by decide +kernel

/-- W12. -/
theorem test_swp_unaligned :
    seen 0xE1032091#32 (start true [(1, 0x01020304), (3, 0x3002)] [(0x3000, 0xA1B2C3D4)]) (fun t => (t.reg 2, t.word 0x3000)) = some (0xC3D4A1B2#32, 0x01020304#32) := by decide +kernel

/-- W13. -/
theorem test_swp_base_clash :
    faulted 0xE1033091#32 (start true [] []) = some (.unpredictable (.swapBase 0xE1033091#32)) := by decide +kernel

/-- B3. -/
theorem test_swpb_both_ends :
    [true, false].map (fun b => seen 0xE1432091#32 (start b [(1, 0xFFFFFF5A), (3, 0x3001)] [(0x3000, 0xA1B2C3D4)]) (fun t => (t.reg 2, t.word 0x3000))) =
      [some (0xB2#32, 0xA15AC3D4#32), some (0xC3#32, 0xA1B25AD4#32)] := by decide +kernel

/-- R130's worked example. -/
theorem test_mrc_reads_control :
    seen 0xEE110F10#32 (start false [] []) (fun t => (t.reg 0, t.control)) = some (0x78#32, 0x78#32) := by decide +kernel

/-- R132's worked example. -/
theorem test_mcr_sets_b :
    seen 0xEE010F10#32 (start false [(0, 0xF8)] []) (fun t => (t.control, t.big)) = some (0xF8#32, true) := by decide +kernel

/-- M2. -/
theorem test_mcr_other_bit :
    turnedAway 0xEE010F10#32 (start false [(0, 0xF9)] []) = some (.controlBitOtherThanB 0xEE010F10#32) := by decide +kernel

/-- W8. -/
theorem test_undefined_space :
    faulted 0xE7921013#32 (start false [] []) = some (.undefinedInstruction 0xE7921013#32) := by decide +kernel

/-- W9. -/
theorem test_store_into_text :
    turnedAway 0xE58A4000#32 { start false [(10, 0x1001)] [] with
      platform := { Platform.reset with text := [⟨0x1000, 4⟩] } } = some (.storeIntoText 0x1001#32) := by decide +kernel

/-- W14. -/
theorem test_unmapped_load :
    faulted 0xE59A4000#32 { start false [(10, 0x10003)] [] with
      platform := { Platform.reset with mapped := [⟨0, 0x10000⟩] } } = some (.dataAbort 0x10003#32) := by decide +kernel

/-! ### What the host asks: a table row's word, as the first instruction after reset -/

theorem test_withFetchWord_runs :
    (match step (State.reset.withFetchWord 32 0xE3800080) with
     | .next t => some (t.reg 0, t.pc)
     | _ => none) = some (0x80#32, 4#32) := by decide +kernel

/-! ### Witnesses: a state and operands that meet the hypotheses of each statement -/

/-- A state for the witnesses: big endian, a base at 0x1000, an offset of 4, an odd base, flags with `Z` clear. -/
def wit : State := start true [(0, 0xF8), (1, 0x1000), (2, 4), (3, 0xABCD1234), (4, 0x1001)] [(0x1000, 0x11223344)]

/-- The same with a misaligned `pc`. -/
def witMisaligned : State := { wit with pc := 0x00008002#32 }

/-- The same with nothing mapped. -/
def witUnmapped : State := { wit with platform := { Platform.reset with mapped := [] } }

/-- The same with program text at 0x1000. -/
def witText : State := { wit with platform := { Platform.reset with text := [⟨0x1000, 8⟩] } }

/-- The same with a change of `B` not yet in effect. -/
def witUnsettled : State := { wit with bSettle := 1 }

/-- The same in User mode. -/
def witUser : State := { wit with cpsr := { wit.cpsr with mode := .user } }

/-- The same in little endian, where `r0` holds the Control Register with bit 7 set. -/
def witLittle : State := { wit with control := 0x00000078#32 }

/-- The same at the last word of the address space. -/
def witTop : State := { wit with pc := 0xFFFFFFFC#32 }

theorem test_witness_DecodeOfEncode :
    Instr.wellFormed (.ldrReg .ge false true 14 0 31 .ror 13) = true := by decide +kernel

theorem test_witness_EncodeOfDecode :
    decode 0xE7121103#32 = .instr (.ldrReg .al false false 2 1 2 .lsl 3) := by decide +kernel

theorem test_witness_UnconditionalSpaceRefused :
    let s := loaded wit 0xF5D0F000#32
    field 0xF5D0F000#32 28 4 = 0b1111#4 ∧ s.pc ∉ s.platform.halt ∧ s.cpsr.t = false ∧ fetch s = some 0xF5D0F000#32 := by decide +kernel

theorem test_witness_UndefinedSpaceFaults :
    let s := loaded wit 0xE7921013#32
    let w := 0xE7921013#32
    field w 28 4 ≠ 0b1111#4 ∧ field w 25 3 = 0b011#3 ∧ bit w 4 = true ∧ s.pc ∉ s.platform.halt ∧ s.cpsr.t = false ∧
      fetch s = some w := by decide +kernel

theorem test_witness_RegisterFifteenRefused :
    Instr.wellFormed (.strhReg .eq true true false 1 2 15) = false := by decide +kernel

theorem test_witness_StepRunsDecoded :
    let s := loaded wit 0xE59A6002#32
    s.pc ∉ s.platform.halt ∧ s.cpsr.t = false ∧ field s.pc 0 2 = 0b00#2 ∧ s.mapped s.pc = true ∧
      decode (s.word s.pc) = .instr (.ldrImm .al true false 10 6 2) := by decide +kernel

theorem test_witness_StepWithoutFetch_halt :
    let s := { wit with platform := { Platform.reset with halt := [0#32] } }
    s.pc ∈ s.platform.halt := by decide +kernel

theorem test_witness_StepWithoutFetch_misaligned :
    witMisaligned.pc ∉ witMisaligned.platform.halt ∧ witMisaligned.cpsr.t = false ∧ field witMisaligned.pc 0 2 ≠ 0b00#2 := by decide +kernel

theorem test_witness_StepWithoutFetch_unmapped :
    witUnmapped.pc ∉ witUnmapped.platform.halt ∧ witUnmapped.cpsr.t = false ∧ witUnmapped.mapped witUnmapped.pc = false := by decide +kernel

theorem test_witness_RefusedWordsRefuseTheStep :
    let s := loaded wit 0xEAFFFFFE#32
    s.pc ∉ s.platform.halt ∧ s.cpsr.t = false ∧ field s.pc 0 2 = 0b00#2 ∧ s.mapped s.pc = true ∧
      decode (s.word s.pc) = .refused .branch := by decide +kernel

theorem test_witness_LoadedWordIsFetched :
    field wit.pc 0 2 = 0b00#2 ∧ wit.mapped wit.pc = true := by decide +kernel

theorem test_witness_ProgramCounterAdvances_next :
    exec (.ldrImm .al true false 1 5 0) wit = .next (after (.ldrImm .al true false 1 5 0) wit) := exec_of_goesOn (by decide +kernel)

theorem test_witness_ProgramCounterAdvances_top :
    witTop.pc = 0xFFFFFFFC#32 ∧ (0xFFFFFFF8#32 : Word) ≠ 0xFFFFFFFC#32 ∧
      Completes (exec (.mrc .al 5) { witTop with pc := 0xFFFFFFF8#32 }) := ⟨by decide +kernel, by decide, _, exec_of_goesOn (by decide +kernel)⟩

theorem test_witness_FailedConditionOnlyAdvances :
    Instr.wellFormed (.swp .eq 1 1 1) = true ∧ conditionPassed .eq wit.cpsr = false ∧ wit.pc ≠ 0xFFFFFFFC#32 := by decide +kernel

theorem test_witness_StepKeepsInvariant :
    Invariant (loaded wit 0xE5813001#32) ∧ goesOn (.strImm .al true false 1 3 1) (loaded wit 0xE5813001#32) = true ∧
      decode ((loaded wit 0xE5813001#32).word 0x8000) = .instr (.strImm .al true false 1 3 1) := by unfold Invariant; decide +kernel

theorem test_witness_StepKeepsPremises :
    Premises (loaded witLittle 0xEE010F10#32) ∧
      seen 0xEE010F10#32 witLittle (fun t => t.big) = some true := by unfold Premises; decide +kernel

theorem test_witness_StepChangesNoFixedState :
    seen 0xEE010F10#32 witLittle (fun t => t.control) = some 0xF8#32 := by decide +kernel

theorem test_witness_OnlyOrrWithSWritesFlags :
    goesOn (.orrImm .al true 6 6 0 0) wit = true ∧ (after (.orrImm .al true 6 6 0 0) wit).cpsr ≠ wit.cpsr := by decide +kernel

theorem test_witness_OnlyMcrWritesControl :
    goesOn (.mcr .al 0) witLittle = true ∧ (after (.mcr .al 0) witLittle).control ≠ witLittle.control := by decide +kernel

theorem test_witness_SubwordDoneTracksAccesses :
    exec (.strbImm .al true false 4 3 0) wit = .next (after (.strbImm .al true false 4 3 0) wit) := exec_of_goesOn (by decide +kernel)

theorem test_witness_SettleCountsDown :
    exec (.mcr .al 0) witLittle = .next (after (.mcr .al 0) witLittle) := exec_of_goesOn (by decide +kernel)

theorem test_witness_RegisterFrame :
    goesOn (.ldrImm .al true true 1 5 4) wit = true ∧ (3 : Reg) ∉ (Instr.ldrImm .al true true 1 5 4).writes ∧ (3 : Reg) ≠ 15#4 := by decide +kernel

theorem test_witness_NonStoresLeaveMemory :
    (Instr.ldrhImm .al true true true 1 5 0 2).stores = false ∧ goesOn (.ldrhImm .al true true true 1 5 0 2) wit = true := by decide +kernel

theorem test_witness_WordStoreFrame :
    let i := Instr.strImm .al true true 1 3 3
    (i.stores && i.wordAccess) = true ∧ i.access wit = some 0x1003#32 ∧ goesOn i wit = true ∧ align 0x1004#32 ≠ align 0x1003#32 := by decide +kernel

theorem test_witness_HalfStoreFrame_even :
    let i := Instr.strhImm .al true true false 1 3 0 2
    (i.stores && i.halfAccess) = true ∧ i.access wit = some 0x1002#32 ∧ goesOn i wit = true ∧ bit 0x1002#32 0 = false ∧
      (0x1001#32 : Word) ≠ 0x1002#32 ∧ (0x1001#32 : Word) ≠ 0x1002#32 + 1#32 := by decide +kernel

theorem test_witness_HalfStoreFrame_odd :
    let i := Instr.strhImm .al true true true 1 3 0 3
    (i.stores && i.halfAccess) = true ∧ i.access wit = some 0x1003#32 ∧ Completes (exec i wit) ∧ bit 0x1003#32 0 = true ∧
      align 0x1004#32 ≠ align 0x1003#32 := ⟨by decide +kernel, by decide +kernel, ⟨_, rfl⟩, by decide, by decide⟩

theorem test_witness_ByteStoreFrame :
    let i := Instr.swpb .al 4 5 3
    (i.stores && i.byteAccess) = true ∧ i.access wit = some 0x1001#32 ∧ goesOn i wit = true ∧ (0x1002#32 : Word) ≠ 0x1001#32 := by decide +kernel

theorem test_witness_BigEndianLanes :
    wit.big = true ∧ align 0xFFFFFFFC#32 = 0xFFFFFFFC#32 := by decide +kernel

theorem test_witness_LittleEndianLanes :
    witLittle.big = false ∧ align 0xFFFFFFFC#32 = 0xFFFFFFFC#32 := by decide +kernel

theorem test_witness_WordAccessIgnoresByteOrder :
    (Instr.swp .al 1 5 3).wordAccess = true ∧ goesOn (.swp .al 1 5 3) wit = true := by decide +kernel

theorem test_witness_WordReadPrimitive :
    field 0x1000#32 0 2 = 0b00#2 ∧ wit.mapped 0x1000 = true ∧ witUnmapped.mapped 0 = false ∧ witUnmapped.pc = 0 ∧
      witUnmapped.pc ∉ witUnmapped.platform.halt ∧ witUnmapped.cpsr.t = false ∧ wit.pc = 0 ∧ wit.mapped 0 = true := by decide +kernel

theorem test_witness_SubwordReadPrimitives :
    wit.mapped 0x1003 = true ∧ witUnmapped.mapped 0x1003 = false ∧ bit 0x1002#32 0 = false := by decide +kernel

theorem test_witness_WordWritePrimitive :
    wit.mapped 0x1003 = true ∧ wit.inText 0x1003 = false ∧ witUnmapped.mapped 0x1003 = false ∧
      witText.mapped 0x1003 = true ∧ witText.inText 0x1003 = true ∧ align 0x1004#32 ≠ align 0x1003#32 := by decide +kernel

theorem test_witness_HalfWritePrimitive :
    bit 0x1002#32 0 = false ∧ wit.mapped 0x1002 = true ∧ wit.inText 0x1002 = false ∧ witUnmapped.mapped 0x1002 = false ∧
      witText.mapped 0x1002 = true ∧ witText.inText 0x1002 = true ∧ align 0x1004#32 ≠ align 0x1002#32 := by decide +kernel

theorem test_witness_ByteWritePrimitive :
    wit.mapped 0x1007 = true ∧ wit.inText 0x1007 = false ∧ witUnmapped.mapped 0x1007 = false ∧
      witText.mapped 0x1007 = true ∧ witText.inText 0x1007 = true ∧ align 0x1004#32 ≠ align 0x1003#32 ∧ 3 < 4 := by decide +kernel

theorem test_witness_StoredWordReadByBytes :
    align 0x1000#32 = 0x1000#32 ∧ wit.big = true ∧ witLittle.big = false := by decide +kernel

theorem test_witness_ShiftByImmediateTable :
    (31#5 : BitVec 5) ≠ 0 ∧ (1#5 : BitVec 5) ≠ 0 ∧ 30 < 31 ∧ 31 < 32 := by decide +kernel

theorem test_witness_ShiftByRegisterTable :
    (0#8 : BitVec 8) = 0 ∧ (31#8 : BitVec 8) ≠ 0 ∧ (31#8).toNat < 32 ∧ (32#8 : BitVec 8) = 32 ∧ 32 < (33#8).toNat ∧
      32 ≤ (32#8).toNat ∧ (32#8).toNat % 32 = 0 ∧ 32 ≤ (255#8).toNat ∧ (255#8).toNat % 32 ≠ 0 := by decide +kernel

theorem test_witness_OrrImmediateResult :
    Ready (.orrImm .al true 3 3 15 0x20) wit := by unfold Ready; decide +kernel

theorem test_witness_OrrRegisterResult :
    Ready (.orrShiftImm .ne true 3 3 0 .ror 3) wit ∧ Ready (.orrShiftReg .al false 3 3 3 .asr 3) wit := by unfold Ready; decide +kernel

theorem test_witness_MrcResult :
    Ready (.mrc .al 14) wit ∧ wit.cpsr.mode ≠ .user := by unfold Ready; decide +kernel

theorem test_witness_McrResult_same :
    Ready (.mcr .al 0) wit ∧ wit.cpsr.mode ≠ .user ∧ wit.reg 0 = wit.control := by unfold Ready; decide +kernel

theorem test_witness_McrResult_change :
    Ready (.mcr .al 0) witLittle ∧ witLittle.cpsr.mode ≠ .user ∧ witLittle.reg 0 = 0xF8#32 ∧
      witLittle.control = 0x78#32 ∧ witLittle.subwordDone = false := by unfold Ready; decide +kernel

/-- 0xF8 and 0x78 differ in bit 7 and in no other. -/
theorem test_witness_only_bit_7_differs : ∀ k, k ≠ 7 → bit 0xF8#32 k = bit 0x78#32 k := by
  intro k hk
  by_cases h : k < 32
  · have low : ∀ j : Fin 32, j.val ≠ 7 → bit 0xF8#32 j.val = bit 0x78#32 j.val := by decide
    exact low ⟨k, h⟩ hk
  · simp [bit, BitVec.getLsbD_of_ge _ _ (by omega : 32 ≤ k)]

theorem test_witness_CoprocessorStops_user :
    Ready (.mcr .al 0) witUser ∧ Ready (.mrc .al 0) witUser ∧ witUser.cpsr.mode = .user := by unfold Ready; decide +kernel

theorem test_witness_CoprocessorStops_other_bit :
    Ready (.mcr .al 1) wit ∧ wit.cpsr.mode ≠ .user ∧ bit (wit.reg 1) 12 ≠ bit wit.control 12 := by unfold Ready; decide +kernel

theorem test_witness_CoprocessorStops_late :
    let s := { witLittle with subwordDone := true }
    Ready (.mcr .al 0) s ∧ s.cpsr.mode ≠ .user ∧ s.reg 0 = 0xF8#32 ∧ s.control = 0x78#32 ∧ s.subwordDone = true := by unfold Ready; decide +kernel

theorem test_witness_BigEndianMacroSetsB :
    witLittle.cpsr.mode ≠ .user ∧ witLittle.pc.toNat + 12 < 2 ^ 32 ∧ (witLittle.big = false → witLittle.subwordDone = false) := by decide +kernel

theorem test_witness_LdrResult :
    Ready (.ldrImm .al true true 1 5 0xFFF) wit ∧
      Ready (.ldrImmPost .al false 1 5 1) wit ∧
      Ready (.ldrReg .al true true 1 5 31 .asr 2) wit ∧
      Ready (.ldrRegPost .al true 1 5 0 .ror 2) wit ∧
      (1 : Reg) ≠ 5 ∧ (2 : Reg) ≠ 1 ∧ wit.mapped (effective true true true 0x1000 0xFFF).1 = true ∧ wit.mapped 0x1000 = true := by unfold Ready; decide +kernel

theorem test_witness_StrResult :
    Ready (.strImm .al true true 1 5 0xFFF) wit ∧
      Ready (.strImmPost .al false 1 5 1) wit ∧
      Ready (.strReg .al true true 1 5 31 .asr 2) wit ∧
      Ready (.strRegPost .al true 1 5 0 .ror 2) wit ∧
      (1 : Reg) ≠ 5 ∧ (2 : Reg) ≠ 1 ∧ wit.storable (effective true true true 0x1000 0xFFF).1 ∧ wit.storable 0x1000 := by unfold Ready State.storable; decide +kernel

theorem test_witness_LdrbResult :
    Ready (.ldrbImm .al true true 1 5 0xFFF) wit ∧
      Ready (.ldrbImmPost .al false 1 5 1) wit ∧
      Ready (.ldrbReg .al true true 1 5 31 .asr 2) wit ∧
      Ready (.ldrbRegPost .al true 1 5 0 .ror 2) wit ∧
      (1 : Reg) ≠ 5 ∧ (2 : Reg) ≠ 1 ∧ wit.bSettle = 0 ∧ wit.mapped (effective true true true 0x1000 0xFFF).1 = true ∧ wit.mapped 0x1000 = true := by unfold Ready; decide +kernel

theorem test_witness_StrbResult :
    Ready (.strbImm .al true true 1 5 0xFFF) wit ∧
      Ready (.strbImmPost .al false 1 5 1) wit ∧
      Ready (.strbReg .al true true 1 5 31 .asr 2) wit ∧
      Ready (.strbRegPost .al true 1 5 0 .ror 2) wit ∧
      (1 : Reg) ≠ 5 ∧ (2 : Reg) ≠ 1 ∧ wit.bSettle = 0 ∧ wit.storable (effective true true true 0x1000 0xFFF).1 ∧ wit.storable 0x1000 := by unfold Ready State.storable; decide +kernel

theorem test_witness_LdrhEvenResult :
    Ready (.ldrhImm .al true true true 1 5 15 14) wit ∧
      Ready (.ldrhReg .al false false false 1 5 2) wit ∧
      wit.bSettle = 0 ∧ (effective true true true 0x1000 0xFE).1 = 0x10FE#32 ∧ wit.mapped (effective true true true 0x1000 0xFE).1 = true ∧ bit 0x10FE#32 0 = false ∧
      (effective false false false 0x1000 4).1 = 0x1000#32 ∧ bit 0x1000#32 0 = false ∧ (1 : Reg) ≠ 5 ∧ (2 : Reg) ≠ 1 := by unfold Ready; decide +kernel

theorem test_witness_StrhEvenResult :
    Ready (.strhImm .al true true true 1 5 15 14) wit ∧
      Ready (.strhReg .al false false false 1 5 2) wit ∧
      wit.bSettle = 0 ∧ (effective true true true 0x1000 0xFE).1 = 0x10FE#32 ∧ wit.storable (effective true true true 0x1000 0xFE).1 ∧ bit 0x10FE#32 0 = false ∧
      (effective false false false 0x1000 4).1 = 0x1000#32 ∧ bit 0x1000#32 0 = false ∧ (1 : Reg) ≠ 5 ∧ (2 : Reg) ≠ 1 := by unfold Ready State.storable; decide +kernel

theorem test_witness_LdrhOddResult :
    Ready (.ldrhImm .al true true true 4 5 15 14) wit ∧
      Ready (.ldrhReg .al false false false 4 5 2) wit ∧
      wit.bSettle = 0 ∧ (effective true true true 0x1001 0xFE).1 = 0x10FF#32 ∧ wit.mapped (effective true true true 0x1001 0xFE).1 = true ∧ bit 0x10FF#32 0 = true ∧
      (effective false false false 0x1001 4).1 = 0x1001#32 ∧ bit 0x1001#32 0 = true ∧ (4 : Reg) ≠ 5 ∧ (2 : Reg) ≠ 4 := by unfold Ready; decide +kernel

theorem test_witness_StrhOddResult :
    Ready (.strhImm .al true true true 4 5 15 14) wit ∧
      Ready (.strhReg .al false false false 4 5 2) wit ∧
      wit.bSettle = 0 ∧ (effective true true true 0x1001 0xFE).1 = 0x10FF#32 ∧ wit.storable (effective true true true 0x1001 0xFE).1 ∧ bit 0x10FF#32 0 = true ∧
      (effective false false false 0x1001 4).1 = 0x1001#32 ∧ bit 0x1001#32 0 = true ∧ (4 : Reg) ≠ 5 ∧ (2 : Reg) ≠ 4 := by unfold Ready State.storable; decide +kernel

theorem test_witness_SwpResult :
    Ready (.swp .al 4 3 3) wit ∧ (4 : Reg) ≠ 3 ∧ wit.storable (wit.reg 4) := by unfold Ready State.storable; decide +kernel

theorem test_witness_SwpbResult :
    Ready (.swpb .al 4 3 3) wit ∧ (4 : Reg) ≠ 3 ∧ wit.bSettle = 0 ∧ wit.storable (wit.reg 4) := by unfold Ready State.storable; decide +kernel

theorem test_witness_UnmappedAccessAborts :
    let i := Instr.strhReg .al true true true 1 5 2
    i.wellFormed = true ∧ conditionPassed i.cond witUnmapped.cpsr = true ∧ i.predictable = true ∧ witUnmapped.bSettle = 0 ∧
      i.access witUnmapped = some 0x1004#32 ∧ witUnmapped.mapped 0x1004 = false := by decide +kernel

theorem test_witness_TextIsImmutable :
    let i := Instr.swpb .al 4 5 3
    i.wellFormed = true ∧ conditionPassed i.cond witText.cpsr = true ∧ i.predictable = true ∧ witText.bSettle = 0 ∧
      i.stores = true ∧ i.access witText = some 0x1001#32 ∧ witText.mapped 0x1001 = true ∧ witText.inText 0x1001 = true := by decide +kernel

theorem test_witness_WritebackClashFaults :
    (Instr.ldrImm .al true true 1 1 4).wellFormed = true ∧ conditionPassed .al wit.cpsr = true ∧
      (Instr.ldrImm .al true true 1 1 4).writebackRegs = some (1, 1, none) ∧
      (Instr.strhReg .al false true false 1 5 1).wellFormed = true ∧
      (Instr.strhReg .al false true false 1 5 1).writebackRegs = some (1, 5, some 1) ∧ (1 : Reg) ≠ 5 := by decide +kernel

theorem test_witness_UnpredictableFormsFault :
    (Instr.ldrhImm .al false true true 1 5 0 0).wellFormed = true ∧ conditionPassed .al wit.cpsr = true ∧
      (Instr.swpb .al 1 5 1).wellFormed = true := by decide +kernel

theorem test_witness_UnsettledSubwordFaults :
    let i := Instr.ldrhReg .al false true false 1 5 2
    i.wellFormed = true ∧ conditionPassed i.cond witUnsettled.cpsr = true ∧ i.predictable = true ∧ i.subword = true ∧
      0 < witUnsettled.bSettle := by decide +kernel

end Sys2Proof.Tests
end

section
/-! The fetch and the step, one equation for each way they end, and the statements of spec/00_scope.md R15 that follow
from them: what a step runs, and how it ends when it fetches nothing. -/

namespace Sys2Proof.Machine

/-! ### The fetch -/

/-- What is fetched, and that something is (R15, R24, R56, R66). -/
theorem fetch_eq_some_iff {s : State} {word : Word} :
    fetch s = some word ↔ field s.pc 0 2 = 0b00#2 ∧ s.mapped s.pc = true ∧ s.word s.pc = word := by
  simp [fetch, and_assoc]

/-- Nothing is fetched exactly at a `pc` that is misaligned or not mapped (R24, R56). -/
theorem fetch_eq_none_iff {s : State} :
    fetch s = none ↔ field s.pc 0 2 ≠ 0b00#2 ∨ s.mapped s.pc = false := by
  simp [fetch, imp_iff_not_or]

/-! ### The step -/

/-- `HALT` comes before the fetch and before the state bit (R15). -/
theorem step_of_halt {s : State} (halt : s.pc ∈ s.platform.halt) : step s = .fault .runOver := by
  simp [step, raise, halt]

section
variable {s : State} (running : s.pc ∉ s.platform.halt) (arm : s.cpsr.t = false)
include running arm

theorem step_of_fetch_none (nothing : fetch s = none) : step s = .fault (.prefetchAbort s.pc) := by
  simp [step, raise, running, arm, nothing]

theorem step_of_decode_instr {word : Word} {i : Instr} (fetched : fetch s = some word)
    (decoded : decode word = .instr i) : step s = exec i s := by
  simp [step, running, arm, fetched, decoded]

theorem step_of_decode_refused {word : Word} {why : RefusedClass} (fetched : fetch s = some word)
    (decoded : decode word = .refused why) : step s = .refused (.encoding why word) := by
  simp [step, running, arm, fetched, decoded]

theorem step_of_decode_undefined {word : Word} (fetched : fetch s = some word)
    (decoded : decode word = .undefined) : step s = .fault (.undefinedInstruction word) := by
  simp [step, raise, running, arm, fetched, decoded]

end

/-! ### The statements -/

/-- Settles O7: an aligned, mapped `pc` fetches `W[pc]`, and the step on a word that decodes is its `exec`. -/
theorem stepRunsDecoded : Obligations.StepRunsDecoded := by
  intro s i running arm aligned mapped decoded
  have fetched : fetch s = some (s.word s.pc) := fetch_eq_some_iff.mpr ⟨aligned, mapped, rfl⟩
  exact step_of_decode_instr running arm fetched decoded

/-- Settles O8: `HALT` is looked at first; elsewhere a misaligned or unmapped `pc` fetches nothing. -/
theorem stepWithoutFetch : Obligations.StepWithoutFetch := by
  intro s
  refine ⟨step_of_halt, fun running arm unfetchable => ?_⟩
  exact step_of_fetch_none running arm (fetch_eq_none_iff.mpr unfetchable)

end Sys2Proof.Machine
end

section
/-! The decoder gives only instructions that name no register 15 (spec/10_state.md R23, spec/30_encoding.md R110): each
part of it ends in `accept`, in a refusal or in the undefined space. -/

namespace Sys2Proof

/-- An answer that is no ill-formed instruction. -/
def Decoded.Sound (d : Decoded) : Prop := ∀ i, d = .instr i → i.wellFormed = true

theorem Decoded.sound_refused (why : RefusedClass) : (Decoded.refused why).Sound := fun _ h => Decoded.noConfusion h

theorem Decoded.sound_undefined : Decoded.undefined.Sound := fun _ h => Decoded.noConfusion h

theorem accept_sound (i : Instr) (ok : Bool) (why : RefusedClass) : (accept i ok why).Sound := by
  intro j accepted
  unfold accept at accepted
  split at accepted
  · rename_i named
    split at accepted
    · cases accepted; exact named
    · cases accepted
  · cases accepted

theorem decodeOrrReg_sound (c : Cond) (w : Word) : (decodeOrrReg c w).Sound := by
  unfold decodeOrrReg
  split <;> exact accept_sound _ _ _

theorem decodeSwap_sound (c : Cond) (w : Word) : (decodeSwap c w).Sound := by
  unfold decodeSwap
  split
  · split <;> exact accept_sound _ _ _
  · exact Decoded.sound_refused _

theorem decodeHalf_sound (c : Cond) (w : Word) : (decodeHalf c w).Sound := by
  unfold decodeHalf
  split <;> exact accept_sound _ _ _

theorem decodeClass0_sound (c : Cond) (w : Word) : (decodeClass0 c w).Sound := by
  unfold decodeClass0
  split
  · split
    · exact decodeSwap_sound c w
    · exact decodeHalf_sound c w
    · exact Decoded.sound_refused _
  · split
    · exact Decoded.sound_refused _
    · split
      · exact decodeOrrReg_sound c w
      · exact Decoded.sound_refused _

theorem decodeClass1_sound (c : Cond) (w : Word) : (decodeClass1 c w).Sound := by
  unfold decodeClass1
  split
  · exact Decoded.sound_refused _
  · split
    · exact accept_sound _ _ _
    · exact Decoded.sound_refused _

theorem decodeClass7_sound (c : Cond) (w : Word) : (decodeClass7 c w).Sound := by
  unfold decodeClass7
  split
  · exact Decoded.sound_refused _
  · split
    · exact accept_sound _ _ _
    · exact Decoded.sound_refused _

theorem decode_sound (w : Word) : (decode w).Sound := by
  unfold decode
  split
  · exact Decoded.sound_refused _
  · rename_i c _
    split
    · exact decodeClass0_sound c w
    · exact decodeClass1_sound c w
    · exact accept_sound _ _ _
    · split
      · exact Decoded.sound_undefined
      · exact accept_sound _ _ _
    · exact Decoded.sound_refused _
    · exact Decoded.sound_refused _
    · exact Decoded.sound_refused _
    · exact decodeClass7_sound c w

/-- A field that a well-formed instruction uses does not hold 15 (R23). -/
theorem Instr.ne_15_of_mem_regFields {i : Instr} (named : i.wellFormed = true) {r : Reg} (used : r ∈ i.regFields) :
    r ≠ 15#4 := by
  simpa [Reg.named] using List.all_eq_true.mp named r used

theorem Instr.mem_writes_of_result {i : Instr} {r : Reg} (result : i.result = some r) : r ∈ i.writes := by
  simp [Instr.writes, result]

end Sys2Proof
end

section
/-! The shapes of the rules: 27 instructions run 12 shared rules, on operands that differ. What the operands of the
loads and stores have in common is said once (`Serves`), and a proof about every instruction goes over the shapes. -/

namespace Sys2Proof.Machine

/-- The transfer `T s` is made of the operands of `i` in the state `s`: it writes its base back when `i` does, and it
does not depend on `pc`, which no register field names (R23, R99, R103). -/
structure Serves (i : Instr) (T : State → Transfer) : Prop where
  writeback : ∀ s, i.writebackRegs = if (T s).index.writesBack then some ((T s).rn, (T s).rd, (T s).rm) else none
  base_ne_15 : i.wellFormed = true → ∀ s, (T s).rn ≠ 15#4
  with_pc : i.wellFormed = true → ∀ s q, T { s with pc := q } = T s

/-- A named register is read alike at every `pc`. -/
theorem State.reg_with_pc (s : State) (q : Word) {r : Reg} (h : r ≠ 15#4) : { s with pc := q }.reg r = s.reg r := by
  simp [State.reg, Reg.toNat_lt_of_ne h]

section
variable {i : Instr} {x : Index} {u : Bool} {rn rd rm : Reg}

theorem serves_immTransfer {off : BitVec 12}
    (wb : i.writebackRegs = if x.writesBack then some (rn, rd, none) else none) (fields : i.regFields = [rn, rd]) :
    Serves i fun _ => immTransfer x u rn rd off where
  writeback _ := wb
  base_ne_15 named _ := Instr.ne_15_of_mem_regFields named (fields ▸ .head _)
  with_pc _ _ _ := rfl

theorem serves_halfImmTransfer {h l : BitVec 4}
    (wb : i.writebackRegs = if x.writesBack then some (rn, rd, none) else none) (fields : i.regFields = [rn, rd]) :
    Serves i fun _ => halfImmTransfer x u rn rd h l where
  writeback _ := wb
  base_ne_15 named _ := Instr.ne_15_of_mem_regFields named (fields ▸ .head _)
  with_pc _ _ _ := rfl

theorem serves_regTransfer {n : BitVec 5} {sh : Shift}
    (wb : i.writebackRegs = if x.writesBack then some (rn, rd, some rm) else none)
    (fields : i.regFields = [rn, rd, rm]) : Serves i fun s => regTransfer s x u rn rd n sh rm where
  writeback _ := wb
  base_ne_15 named _ := Instr.ne_15_of_mem_regFields named (fields ▸ .head _)
  with_pc named s q := by
    simp [regTransfer, State.reg_with_pc s q (Instr.ne_15_of_mem_regFields (r := rm) named (by simp [fields]))]

theorem serves_halfRegTransfer
    (wb : i.writebackRegs = if x.writesBack then some (rn, rd, some rm) else none)
    (fields : i.regFields = [rn, rd, rm]) : Serves i fun s => halfRegTransfer s x u rn rd rm where
  writeback _ := wb
  base_ne_15 named _ := Instr.ne_15_of_mem_regFields named (fields ▸ .head _)
  with_pc named s q := by
    simp [halfRegTransfer, State.reg_with_pc s q (Instr.ne_15_of_mem_regFields (r := rm) named (by simp [fields]))]

end

section
variable {i : Instr} {T : State → Transfer} (serves : Serves i T)
include serves

/-- A base that is written back is one of the registers the instruction writes (R22). -/
theorem Serves.base_mem_writes {s : State} (wb : (T s).index.writesBack = true) : (T s).rn ∈ i.writes := by
  simp [Instr.writes, serves.writeback s, wb]

/-- An allowed operand combination passes the check of R101 and R104. -/
theorem Serves.clash_eq_none (allowed : i.predictable = true) (s : State) (word : Word) :
    (T s).clash word = none := by
  rw [Transfer.clash_eq_none]
  intro wb
  simp only [Instr.predictable, serves.writeback s, wb, if_true, Bool.and_eq_true, bne_iff_ne] at allowed
  exact allowed.1

/-- The address of an access does not depend on `pc` (R23, R99, R103). -/
theorem Serves.addr_with_pc (named : i.wellFormed = true) (s : State) (q : Word) :
    (T s).addr { s with pc := q } = (T s).addr s := by
  simp [Transfer.addr, State.reg_with_pc s q (serves.base_ne_15 named s)]

end

/-- The rule an instruction runs is one of twelve, each on that instruction's operands. -/
inductive RuleShape : Instr → (Word → State → Out) → Prop
  | orr {i f rd} (rn : Reg) (operand : State → Word × Bool) (flags : i.setsFlags = f) (result : i.result = some rd)
      (sub : i.subword = false) : RuleShape i fun _ s => orr f rn rd (operand s) s
  | loadWord {i} (T : State → Transfer) (serves : Serves i T) (result : ∀ s, i.result = some (T s).rd)
      (sub : i.subword = false) : RuleShape i fun word s => loadWord (T s) word s
  | storeWord {i} (T : State → Transfer) (serves : Serves i T) (stores : i.stores = true)
      (sub : i.subword = false) : RuleShape i fun word s => storeWord (T s) word s
  | loadByte {i} (T : State → Transfer) (serves : Serves i T) (result : ∀ s, i.result = some (T s).rd)
      (sub : i.subword = true) : RuleShape i fun word s => loadByte (T s) word s
  | storeByte {i} (T : State → Transfer) (serves : Serves i T) (stores : i.stores = true)
      (sub : i.subword = true) : RuleShape i fun word s => storeByte (T s) word s
  | loadHalf {i} (T : State → Transfer) (serves : Serves i T) (result : ∀ s, i.result = some (T s).rd)
      (sub : i.subword = true) : RuleShape i fun word s => loadHalf (T s) word s
  | storeHalf {i} (T : State → Transfer) (serves : Serves i T) (stores : i.stores = true)
      (sub : i.subword = true) : RuleShape i fun word s => storeHalf (T s) word s
  | halfP0W1 {i} (forbidden : i.predictable = false) :
      RuleShape i fun word _ => raise (.unpredictable (.halfP0W1 word))
  | swp (c : Cond) (rn rd rm : Reg) : RuleShape (.swp c rn rd rm) (swapWord rn rd rm)
  | swpb (c : Cond) (rn rd rm : Reg) : RuleShape (.swpb c rn rd rm) (swapByte rn rd rm)
  | mrc (c : Cond) (rd : Reg) :
      RuleShape (.mrc c rd) fun word s => privileged word s (complete (s.setReg rd s.control))
  | mcr (c : Cond) (rd : Reg) :
      RuleShape (.mcr c rd) fun word s => privileged word s (writeControl (s.reg rd) word s)

/-- The indexing that `P` and `W` give writes back exactly when they are equal (R103). -/
theorem Index.writesBack_of_ofPW {p w : Bool} {x : Index} (indexing : Index.ofPW p w = some x) :
    x.writesBack = (p == w) := by
  revert x; cases p <;> cases w <;> decide

theorem Index.ofPW_eq_none {p w : Bool} : Index.ofPW p w = none ↔ p = false ∧ w = true := by
  revert p w; decide

/-- A half-word rule has the shape its access has, or is the forbidden setting of `P` and `W` (R103). -/
theorem ruleShape_halfIndexed {i : Instr} {p w : Bool} {access : Index → Word → State → Out}
    (legal : ∀ x, x.writesBack = (p == w) → RuleShape i (access x))
    (forbidden : p = false → w = true → i.predictable = false) :
    RuleShape i fun word s => halfIndexed word p w fun x => access x word s := by
  unfold halfIndexed
  cases indexing : Index.ofPW p w with
  | some x => exact legal x (Index.writesBack_of_ofPW indexing)
  | none =>
    obtain ⟨hp, hw⟩ := Index.ofPW_eq_none.mp indexing
    exact .halfP0W1 (forbidden hp hw)

theorem ruleShape (i : Instr) : RuleShape i (rule i) := by
  cases i with
  | orrImm c f rn rd r k => exact .orr rn (fun s => immediateOperand r k s.cpsr.c) rfl rfl rfl
  | orrShiftImm c f rn rd n sh rm =>
    exact .orr rn (fun s => shiftByImmediate (s.reg rm) sh n s.cpsr.c) rfl rfl rfl
  | orrShiftReg c f rn rd rs sh rm =>
    exact .orr rn (fun s => shiftByRegister (s.reg rm) sh ((s.reg rs).setWidth 8) s.cpsr.c) rfl rfl rfl
  | ldrImm c u w => exact .loadWord _ (serves_immTransfer (by cases w <;> rfl) rfl) (fun _ => rfl) rfl
  | ldrImmPost => exact .loadWord _ (serves_immTransfer rfl rfl) (fun _ => rfl) rfl
  | ldrReg c u w =>
    exact .loadWord _ (serves_regTransfer (by cases w <;> rfl) rfl) (fun _ => rfl) rfl
  | ldrRegPost => exact .loadWord _ (serves_regTransfer rfl rfl) (fun _ => rfl) rfl
  | strImm c u w => exact .storeWord _ (serves_immTransfer (by cases w <;> rfl) rfl) rfl rfl
  | strImmPost => exact .storeWord _ (serves_immTransfer rfl rfl) rfl rfl
  | strReg c u w =>
    exact .storeWord _ (serves_regTransfer (by cases w <;> rfl) rfl) rfl rfl
  | strRegPost => exact .storeWord _ (serves_regTransfer rfl rfl) rfl rfl
  | ldrbImm c u w => exact .loadByte _ (serves_immTransfer (by cases w <;> rfl) rfl) (fun _ => rfl) rfl
  | ldrbImmPost => exact .loadByte _ (serves_immTransfer rfl rfl) (fun _ => rfl) rfl
  | ldrbReg c u w =>
    exact .loadByte _ (serves_regTransfer (by cases w <;> rfl) rfl) (fun _ => rfl) rfl
  | ldrbRegPost => exact .loadByte _ (serves_regTransfer rfl rfl) (fun _ => rfl) rfl
  | strbImm c u w => exact .storeByte _ (serves_immTransfer (by cases w <;> rfl) rfl) rfl rfl
  | strbImmPost => exact .storeByte _ (serves_immTransfer rfl rfl) rfl rfl
  | strbReg c u w =>
    exact .storeByte _ (serves_regTransfer (by cases w <;> rfl) rfl) rfl rfl
  | strbRegPost => exact .storeByte _ (serves_regTransfer rfl rfl) rfl rfl
  | ldrhImm c p u w rn rd h l =>
    refine ruleShape_halfIndexed (fun x wb => ?_) (by rintro rfl rfl; simp [Instr.predictable])
    exact .loadHalf _ (serves_halfImmTransfer (wb ▸ rfl) rfl) (fun _ => rfl) rfl
  | ldrhReg c p u w rn rd rm =>
    refine ruleShape_halfIndexed (fun x wb => ?_) (by rintro rfl rfl; simp [Instr.predictable])
    exact .loadHalf _ (serves_halfRegTransfer (wb ▸ rfl) rfl) (fun _ => rfl) rfl
  | strhImm c p u w rn rd h l =>
    refine ruleShape_halfIndexed (fun x wb => ?_) (by rintro rfl rfl; simp [Instr.predictable])
    exact .storeHalf _ (serves_halfImmTransfer (wb ▸ rfl) rfl) rfl rfl
  | strhReg c p u w rn rd rm =>
    refine ruleShape_halfIndexed (fun x wb => ?_) (by rintro rfl rfl; simp [Instr.predictable])
    exact .storeHalf _ (serves_halfRegTransfer (wb ▸ rfl) rfl) rfl rfl
  | swp c rn rd rm => exact .swp c rn rd rm
  | swpb c rn rd rm => exact .swpb c rn rd rm
  | mrc c rd => exact .mrc c rd
  | mcr c rd => exact .mcr c rd

end Sys2Proof.Machine
end

section
/-! What an instruction can do to the state, said once: the writes its own rule may make (`Work`), and the two ways it
then completes (`Effect`). Every invariant and frame of spec/10_state.md is read off from these. -/

namespace Sys2Proof.Machine

/-- The states an instruction can reach from `s` by its own work: writes of its registers, of memory if it stores, of
the flags if it sets them, and the draw of a free value (R22, log 9). -/
inductive Work (i : Instr) (s : State) : State → Prop
  | start : Work i s s
  | setReg {t} (r : Reg) (v : Word) (writes : r ∈ i.writes) (before : Work i s t) : Work i s (t.setReg r v)
  | setWord {t} (addr v : Word) (stores : i.stores = true) (before : Work i s t) : Work i s (t.setWord addr v)
  | setHalf {t} (addr : Word) (v : Half) (stores : i.stores = true) (before : Work i s t) :
      Work i s (t.setHalf addr v)
  | setByte {t} (addr : Word) (v : Byte) (stores : i.stores = true) (before : Work i s t) :
      Work i s (t.setByte addr v)
  | setFlags {t} (r : Word) (carry : Bool) (flags : i.setsFlags = true) (before : Work i s t) :
      Work i s { t with cpsr := t.cpsr.withResult r carry }
  | draw {t} (before : Work i s t) : Work i s t.draw

section
variable {i : Instr} {s t : State}

/-- No instruction's own work touches `pc`, the Control Register, the ghosts or the launch parameters. -/
theorem Work.keeps (work : Work i s t) :
    t.pc = s.pc ∧ t.control = s.control ∧ t.subwordDone = s.subwordDone ∧ t.bSettle = s.bSettle ∧
      t.platform = s.platform := by
  induction work with
  | start => exact ⟨rfl, rfl, rfl, rfl, rfl⟩
  | setReg _ _ _ _ ih | setWord _ _ _ _ ih | setHalf _ _ _ _ ih | setByte _ _ _ _ ih | setFlags _ _ _ _ ih
  | draw _ ih => simpa using ih

/-- Work keeps memory in its canonical form (R31, log 1). -/
theorem Work.mem_wf (work : Work i s t) (wf : s.mem.wf = true) : t.mem.wf = true := by
  induction work with
  | start => exact wf
  | setReg _ _ _ _ ih | setFlags _ _ _ _ ih | draw _ ih => simpa using ih
  | setWord addr v _ _ ih => exact Memory.wf_putWord addr v ih
  | setHalf addr v _ _ ih => exact Memory.wf_putHalf _ addr v ih
  | setByte addr v _ _ ih => exact Memory.wf_putByte _ addr v ih

/-- Work that stores nothing leaves memory alone (R22). -/
theorem Work.mem_eq (work : Work i s t) (loads : i.stores = false) : t.mem = s.mem := by
  induction work with
  | start => rfl
  | setReg _ _ _ _ ih | setFlags _ _ _ _ ih | draw _ ih => simpa using ih
  | setWord _ _ stores | setHalf _ _ stores | setByte _ _ stores => simp [loads] at stores

/-- Work changes no status field but `N`, `Z` and `C` (R25, R26). -/
theorem Work.cpsr_fixed (work : Work i s t) :
    t.cpsr = { s.cpsr with n := t.cpsr.n, z := t.cpsr.z, c := t.cpsr.c } := by
  induction work with
  | start => rfl
  | setReg _ _ _ _ ih => simpa using ih
  | setWord _ _ _ _ ih | setHalf _ _ _ _ ih | setByte _ _ _ _ ih | draw _ ih => exact ih
  | setFlags r carry _ _ ih =>
    simp only [Cpsr.withResult]
    rw [ih]

/-- Work of an instruction that sets no flags leaves the status register alone (R25). -/
theorem Work.cpsr_eq (work : Work i s t) (silent : i.setsFlags = false) : t.cpsr = s.cpsr := by
  induction work with
  | start => rfl
  | setReg _ _ _ _ ih | setWord _ _ _ _ ih | setHalf _ _ _ _ ih | setByte _ _ _ _ ih | draw _ ih => simpa using ih
  | setFlags _ _ flags => simp [silent] at flags

/-- Work changes no register but those the instruction writes (R22). -/
theorem Work.reg_eq (work : Work i s t) {r : Reg} (unwritten : r ∉ i.writes) : t.reg r = s.reg r := by
  induction work with
  | start => rfl
  | setReg q v writes _ ih =>
    rw [State.reg_setReg_ne _ (by rintro rfl; exact unwritten writes), ih]
  | setWord _ _ _ _ ih | setHalf _ _ _ _ ih | setByte _ _ _ _ ih | draw _ ih => simpa using ih
  | setFlags _ _ _ _ ih => exact ih

/-- Writing the base back is work of the instruction the transfer serves (R99). -/
theorem Work.writeBack {T : State → Transfer} (serves : Serves i T) (q : State) (work : Work i s t) :
    Work i s ((T q).writeBack t) := by
  unfold Transfer.writeBack
  split
  · rename_i wb; exact work.setReg _ _ (serves.base_mem_writes wb)
  · exact work

end

/-- The state in which an instruction ends that did its work in `t`; `sub` says whether it made a sub-word access
(R24, R33, R34). -/
def State.finish (t : State) (sub : Bool) : State := { t with subwordDone := t.subwordDone || sub }.done

theorem State.finish_true (t : State) : t.finish true = t.didSubword.done := by
  simp [State.finish, State.didSubword]

theorem State.finish_false (t : State) : t.finish false = t.done := by simp [State.finish]

@[simp] theorem State.finish_pc (t : State) (sub : Bool) : (t.finish sub).pc = t.pc + 4#32 := rfl

@[simp] theorem State.finish_cpsr (t : State) (sub : Bool) : (t.finish sub).cpsr = t.cpsr := rfl

@[simp] theorem State.finish_control (t : State) (sub : Bool) : (t.finish sub).control = t.control := rfl

@[simp] theorem State.finish_mem (t : State) (sub : Bool) : (t.finish sub).mem = t.mem := rfl

@[simp] theorem State.finish_subwordDone (t : State) (sub : Bool) :
    (t.finish sub).subwordDone = (t.subwordDone || sub) := rfl

@[simp] theorem State.finish_bSettle (t : State) (sub : Bool) : (t.finish sub).bSettle = t.bSettle - 1 := rfl

@[simp] theorem State.finish_platform (t : State) (sub : Bool) : (t.finish sub).platform = t.platform := rfl

theorem State.finish_reg (t : State) (sub : Bool) {r : Reg} (h : r ≠ 15#4) : (t.finish sub).reg r = t.reg r :=
  State.done_reg _ h

/-- `MCR` has changed `B` by the value `v`, and the `BSettle` count starts (R34, R132). -/
def State.switch (s : State) (v : Word) : State :=
  { s with control := v, bSettle := s.platform.bEffectDelay, pc := s.pc + 4#32 }

/-- The two ways an instruction completes: it finishes its work, or it is an `MCR` that changes `B` and no other bit of
the Control Register. -/
inductive Effect (i : Instr) (s : State) : State → Prop
  | finish {t} (work : Work i s t) : Effect i s (t.finish (i.subword && conditionPassed i.cond s.cpsr))
  | switch (v : Word) (mcr : ∃ cond rd, i = .mcr cond rd) (changed : bit v 7 ≠ bit s.control 7)
      (others : ∀ k, k ≠ 7 → bit v k = bit s.control k) : Effect i s (s.switch v)

/-- Bits [31:8] and [6:0] agree only if every bit but bit 7 does (R133). -/
theorem bit_eq_of_otherBitsDiffer {v old : Word} (same : otherBitsDiffer v old = false) :
    ∀ k, k ≠ 7 → bit v k = bit old k := by
  simp only [otherBitsDiffer, Bool.or_eq_false_iff, bne_eq_false_iff_eq] at same
  obtain ⟨high, low⟩ := same
  intro k hk
  by_cases below : k < 7
  · have h := congrArg (·.getLsbD k) low
    simpa [field_getLsbD _ _ _ _ below] using h
  · by_cases inside : k < 32
    · have h := congrArg (·.getLsbD (k - 8)) high
      simpa [field_getLsbD _ _ _ _ (show k - 8 < 24 by omega), show 8 + (k - 8) = k by omega] using h
    · simp [bit, BitVec.getLsbD_of_ge, show 32 ≤ k by omega]

/-- A write of the Control Register that leaves `B` alone leaves all of it alone (R132, R133). -/
theorem eq_of_otherBitsDiffer {v old : Word} (same : otherBitsDiffer v old = false) (b : bit v 7 = bit old 7) :
    v = old := by
  refine BitVec.eq_of_getLsbD_eq fun k _ => ?_
  by_cases hk : k = 7
  · exact hk ▸ b
  · exact bit_eq_of_otherBitsDiffer same k hk

section
variable {i : Instr} {s s' t : State}

/-- An instruction whose condition passed, with or without a sub-word access, finishes as `Effect` says. -/
theorem Effect.of_work {sub : Bool} (passed : conditionPassed i.cond s.cpsr = true) (kind : i.subword = sub)
    (work : Work i s t) (ends : s' = t.finish sub) : Effect i s s' := by
  have h := Effect.finish work
  rw [passed, kind, Bool.and_true] at h
  exact ends ▸ h

/-- What a rule can do, shape by shape. -/
theorem RuleShape.effect {f : Word → State → Out} {word : Word} (shape : RuleShape i f)
    (passed : conditionPassed i.cond s.cpsr = true) (next : f word s = .next s') : Effect i s s' := by
  cases shape with
  | orr rn operand flags result sub =>
    obtain ⟨-, rfl⟩ := orr_next.mp next
    refine .of_work passed sub (.setReg _ _ (Instr.mem_writes_of_result result) ?_) (State.finish_false _).symm
    split
    · rename_i f; exact .setFlags _ _ (flags.trans f) .start
    · exact .start
  | loadWord T serves result sub =>
    obtain ⟨-, -, -, rfl⟩ := loadWord_next.mp next
    exact .of_work passed sub (.setReg _ _ (Instr.mem_writes_of_result (result s)) (Work.start.writeBack serves s))
      (State.finish_false _).symm
  | storeWord T serves stores sub =>
    obtain ⟨-, -, -, rfl⟩ := storeWord_next.mp next
    exact .of_work passed sub ((Work.start.setWord _ _ stores).writeBack serves s) (State.finish_false _).symm
  | loadByte T serves result sub =>
    obtain ⟨-, -, -, -, rfl⟩ := loadByte_next.mp next
    exact .of_work passed sub (.setReg _ _ (Instr.mem_writes_of_result (result s)) (Work.start.writeBack serves s))
      (State.finish_true _).symm
  | storeByte T serves stores sub =>
    obtain ⟨-, -, -, -, rfl⟩ := storeByte_next.mp next
    exact .of_work passed sub ((Work.start.setByte _ _ stores).writeBack serves s) (State.finish_true _).symm
  | loadHalf T serves result sub =>
    obtain ⟨-, -, -, -, rfl⟩ := loadHalf_next.mp next
    have loaded (v : Word) : Work i s (((T s).writeBack s).setReg (T s).rd v) :=
      .setReg _ _ (Instr.mem_writes_of_result (result s)) (Work.start.writeBack serves s)
    split
    · exact .of_work passed sub (loaded _).draw (State.finish_true _).symm
    · exact .of_work passed sub (loaded _) (State.finish_true _).symm
  | storeHalf T serves stores sub =>
    obtain ⟨-, -, -, -, rfl⟩ := storeHalf_next.mp next
    split
    · exact .of_work passed sub ((Work.start.setWord _ _ stores).writeBack serves s).draw (State.finish_true _).symm
    · exact .of_work passed sub ((Work.start.setHalf _ _ stores).writeBack serves s) (State.finish_true _).symm
  | halfP0W1 => simp at next
  | swp c rn rd rm =>
    obtain ⟨-, -, -, rfl⟩ := swapWord_next.mp next
    exact .of_work passed rfl ((Work.start.setWord _ _ rfl).setReg _ _ (Instr.mem_writes_of_result rfl))
      (State.finish_false _).symm
  | swpb c rn rd rm =>
    obtain ⟨-, -, -, -, rfl⟩ := swapByte_next.mp next
    exact .of_work passed rfl ((Work.start.setByte _ _ rfl).setReg _ _ (Instr.mem_writes_of_result rfl))
      (State.finish_true _).symm
  | mrc c rd =>
    obtain ⟨-, completed⟩ := privileged_next.mp next
    obtain ⟨-, rfl⟩ := complete_next.mp completed
    exact .of_work passed rfl (Work.start.setReg _ _ (Instr.mem_writes_of_result rfl)) (State.finish_false _).symm
  | mcr c rd =>
    obtain ⟨-, written⟩ := privileged_next.mp next
    obtain ⟨same, -, ⟨kept, rfl⟩ | ⟨changed, -, rfl⟩⟩ := writeControl_next.mp written
    · rw [eq_of_otherBitsDiffer same kept]
      exact .of_work passed rfl .start (State.finish_false _).symm
    · exact .switch _ ⟨c, rd, rfl⟩ changed (bit_eq_of_otherBitsDiffer same)

/-- What an instruction that completes has done: what its rule does, or nothing when its condition failed (R93). -/
theorem exec_effect (next : exec i s = .next s') : Effect i s s' := by
  obtain ⟨-, ⟨passed, ran⟩ | ⟨failed, -, rfl⟩⟩ := exec_next.mp next
  · exact (ruleShape i).effect passed ran
  · have h : Effect i s (s.finish _) := .finish .start
    rwa [failed, Bool.and_false, State.finish_false] at h

/-- What a step that answers a next state has done. -/
theorem step_effect (next : step s = .next s') : ∃ i, Effect i s s' := by
  obtain ⟨-, -, -, i, -, -, ran⟩ := step_next.mp next
  exact ⟨i, exec_effect ran⟩

end

end Sys2Proof.Machine
end

section
/-! Instructions that stop: at the top of the address space (spec/10_state.md R24), and while `B` is not settled
(R34). Each check is passed by one equation. -/

namespace Sys2Proof.Machine

/-! ### The checks -/

section
variable {s : State} {t : Transfer} {word addr : Word} {rn rd rm : Reg} {k : Out}

theorem checked_of_clash_none (h : t.clash word = none) : checked word t k = k := by simp [checked, h]

theorem swapChecked_of_ne (h : rn ≠ rd ∧ rn ≠ rm) : swapChecked word rn rd rm k = k := by simp [swapChecked, h]

theorem settled_of_eq_zero (h : s.bSettle = 0) : settled s k = k := by simp [settled, h]

theorem settled_of_pos (h : 0 < s.bSettle) : settled s k = .fault (.unpredictable .bNotYetInEffect) := by
  simp [settled, raise, h]

theorem loading_of_mapped (h : s.mapped addr = true) : loading s addr k = k := by simp [loading, h]

theorem storing_of_storable (h : s.mapped addr = true ∧ s.inText addr = false) : storing s addr k = k := by
  simp [storing, h]

theorem privileged_of_privileged (h : s.cpsr.mode.privileged = true) : privileged word s k = k := by
  simp [privileged, h]

theorem advance_of_top (top : s.pc = 0xFFFFFFFC#32) : advance s = .fault (.unpredictable .pcWrap) := by
  simp [advance, raise, top]

theorem complete_of_top (top : s.pc = 0xFFFFFFFC#32) : complete s = .fault (.unpredictable .pcWrap) :=
  advance_of_top top

end

/-! ### The top of the address space -/

section
variable {i : Instr} {f : Word → State → Out} {word : Word} {s s' : State}

/-- A write of the Control Register that completes at another address stops at the top (R24, R132). -/
theorem writeControl_of_top {v q : Word} (top : s.pc = 0xFFFFFFFC#32)
    (next : writeControl v word { s with pc := q } = .next s') :
    writeControl v word s = .fault (.unpredictable .pcWrap) := by
  obtain ⟨same, -, ⟨kept, -⟩ | ⟨changed, fresh, -⟩⟩ := writeControl_next.mp next
  · simp [writeControl, show otherBitsDiffer v s.control = false from same,
      show bit v 7 = bit s.control 7 from kept, complete_of_top, top]
  · simp [writeControl, show otherBitsDiffer v s.control = false from same,
      show bit v 7 ≠ bit s.control 7 from changed, show s.subwordDone = false from fresh, advance_of_top, top]

section
variable {t : Transfer} {q : Word} (addr : t.addr { s with pc := q } = t.addr s) (top : s.pc = 0xFFFFFFFC#32)
include addr top

theorem loadWord_of_top (next : loadWord t word { s with pc := q } = .next s') :
    loadWord t word s = .fault (.unpredictable .pcWrap) := by
  obtain ⟨clash, mapped, -⟩ := loadWord_next.mp next
  rw [addr] at mapped
  rw [loadWord, checked_of_clash_none clash, loading_of_mapped (s := s) mapped, complete_of_top (by simpa using top)]

theorem storeWord_of_top (next : storeWord t word { s with pc := q } = .next s') :
    storeWord t word s = .fault (.unpredictable .pcWrap) := by
  obtain ⟨clash, storable, -⟩ := storeWord_next.mp next
  rw [addr] at storable
  rw [storeWord, checked_of_clash_none clash, storing_of_storable (s := s) storable,
    complete_of_top (by simpa using top)]

theorem loadByte_of_top (next : loadByte t word { s with pc := q } = .next s') :
    loadByte t word s = .fault (.unpredictable .pcWrap) := by
  obtain ⟨clash, calm, mapped, -⟩ := loadByte_next.mp next
  rw [addr] at mapped
  rw [loadByte, checked_of_clash_none clash, settled_of_eq_zero (s := s) calm, loading_of_mapped (s := s) mapped,
    complete_of_top (by simpa using top)]

theorem storeByte_of_top (next : storeByte t word { s with pc := q } = .next s') :
    storeByte t word s = .fault (.unpredictable .pcWrap) := by
  obtain ⟨clash, calm, storable, -⟩ := storeByte_next.mp next
  rw [addr] at storable
  rw [storeByte, checked_of_clash_none clash, settled_of_eq_zero (s := s) calm,
    storing_of_storable (s := s) storable, complete_of_top (by simpa using top)]

theorem loadHalf_of_top (next : loadHalf t word { s with pc := q } = .next s') :
    loadHalf t word s = .fault (.unpredictable .pcWrap) := by
  obtain ⟨clash, calm, mapped, -⟩ := loadHalf_next.mp next
  rw [addr] at mapped
  rw [loadHalf, checked_of_clash_none clash, settled_of_eq_zero (s := s) calm, loading_of_mapped (s := s) mapped]
  split <;> exact complete_of_top (by simpa using top)

theorem storeHalf_of_top (next : storeHalf t word { s with pc := q } = .next s') :
    storeHalf t word s = .fault (.unpredictable .pcWrap) := by
  obtain ⟨clash, calm, storable, -⟩ := storeHalf_next.mp next
  rw [addr] at storable
  rw [storeHalf, checked_of_clash_none clash, settled_of_eq_zero (s := s) calm, storing_of_storable (s := s) storable]
  split <;> exact complete_of_top (by simpa using top)

end

section
variable {rn rd rm : Reg} {q : Word} (base : rn ≠ 15#4) (top : s.pc = 0xFFFFFFFC#32)
include base top

theorem swapWord_of_top (next : swapWord rn rd rm word { s with pc := q } = .next s') :
    swapWord rn rd rm word s = .fault (.unpredictable .pcWrap) := by
  obtain ⟨apart, storable, -⟩ := swapWord_next.mp next
  rw [State.reg_with_pc s q base] at storable
  rw [swapWord, swapAddr, swapChecked_of_ne apart, storing_of_storable (s := s) storable,
    complete_of_top (by simpa using top)]

theorem swapByte_of_top (next : swapByte rn rd rm word { s with pc := q } = .next s') :
    swapByte rn rd rm word s = .fault (.unpredictable .pcWrap) := by
  obtain ⟨apart, calm, storable, -⟩ := swapByte_next.mp next
  rw [State.reg_with_pc s q base] at storable
  rw [swapByte, swapAddr, swapChecked_of_ne apart, settled_of_eq_zero (s := s) calm,
    storing_of_storable (s := s) storable, complete_of_top (by simpa using top)]

end

/-- A rule that completes at another address stops at the top: none of its checks depends on `pc` (R24). -/
theorem RuleShape.of_top (shape : RuleShape i f) (named : i.wellFormed = true) (top : s.pc = 0xFFFFFFFC#32) {q : Word}
    (next : f word { s with pc := q } = .next s') : f word s = .fault (.unpredictable .pcWrap) := by
  cases shape with
  | orr => exact complete_of_top (by simpa using top)
  | loadWord T serves =>
    simp only [serves.with_pc named] at next
    exact loadWord_of_top (serves.addr_with_pc named s q) top next
  | storeWord T serves =>
    simp only [serves.with_pc named] at next
    exact storeWord_of_top (serves.addr_with_pc named s q) top next
  | loadByte T serves =>
    simp only [serves.with_pc named] at next
    exact loadByte_of_top (serves.addr_with_pc named s q) top next
  | storeByte T serves =>
    simp only [serves.with_pc named] at next
    exact storeByte_of_top (serves.addr_with_pc named s q) top next
  | loadHalf T serves =>
    simp only [serves.with_pc named] at next
    exact loadHalf_of_top (serves.addr_with_pc named s q) top next
  | storeHalf T serves =>
    simp only [serves.with_pc named] at next
    exact storeHalf_of_top (serves.addr_with_pc named s q) top next
  | halfP0W1 => simp at next
  | swp => exact swapWord_of_top (Instr.ne_15_of_mem_regFields named (.head _)) top next
  | swpb => exact swapByte_of_top (Instr.ne_15_of_mem_regFields named (.head _)) top next
  | mrc =>
    obtain ⟨mode, -⟩ := privileged_next.mp next
    exact (privileged_of_privileged mode).trans (complete_of_top (by simpa using top))
  | mcr c rd =>
    obtain ⟨mode, written⟩ := privileged_next.mp next
    rw [State.reg_with_pc s q (Instr.ne_15_of_mem_regFields named (.head _))] at written
    exact (privileged_of_privileged mode).trans (writeControl_of_top top written)

/-- An instruction that would complete elsewhere ends with `UNPREDICTABLE(pc wrap)` at the top (R24). -/
theorem exec_of_top (top : s.pc = 0xFFFFFFFC#32) {q : Word} (next : exec i { s with pc := q } = .next s') :
    exec i s = .fault (.unpredictable .pcWrap) := by
  obtain ⟨named, ⟨passed, ran⟩ | ⟨failed, -⟩⟩ := exec_next.mp next
  · have passed : conditionPassed i.cond s.cpsr = true := passed
    simpa [exec_eq_perform, perform, named, passed] using (ruleShape i).of_top named top ran
  · have failed : conditionPassed i.cond s.cpsr = false := failed
    simpa [exec_eq_perform, perform, named, failed] using complete_of_top top

/-! ### An unsettled `B` -/

section
variable {t : Transfer} (clash : t.clash word = none) (waiting : 0 < s.bSettle)
include clash waiting

theorem loadByte_of_unsettled : loadByte t word s = .fault (.unpredictable .bNotYetInEffect) := by
  rw [loadByte, checked_of_clash_none clash, settled_of_pos waiting]

theorem storeByte_of_unsettled : storeByte t word s = .fault (.unpredictable .bNotYetInEffect) := by
  rw [storeByte, checked_of_clash_none clash, settled_of_pos waiting]

theorem loadHalf_of_unsettled : loadHalf t word s = .fault (.unpredictable .bNotYetInEffect) := by
  rw [loadHalf, checked_of_clash_none clash, settled_of_pos waiting]

theorem storeHalf_of_unsettled : storeHalf t word s = .fault (.unpredictable .bNotYetInEffect) := by
  rw [storeHalf, checked_of_clash_none clash, settled_of_pos waiting]

end

/-- A sub-word rule with an allowed operand combination looks at `BSettle` before its address (R34, R221). -/
theorem RuleShape.of_unsettled (shape : RuleShape i f) (allowed : i.predictable = true) (sub : i.subword = true)
    (waiting : 0 < s.bSettle) : f word s = .fault (.unpredictable .bNotYetInEffect) := by
  cases shape with
  | orr _ _ _ _ wordOnly | loadWord _ _ _ wordOnly | storeWord _ _ _ wordOnly => simp [wordOnly] at sub
  | loadByte T serves => exact loadByte_of_unsettled (serves.clash_eq_none allowed s word) waiting
  | storeByte T serves => exact storeByte_of_unsettled (serves.clash_eq_none allowed s word) waiting
  | loadHalf T serves => exact loadHalf_of_unsettled (serves.clash_eq_none allowed s word) waiting
  | storeHalf T serves => exact storeHalf_of_unsettled (serves.clash_eq_none allowed s word) waiting
  | halfP0W1 forbidden => simp [forbidden] at allowed
  | swp | mrc | mcr => cases sub
  | swpb c rn rd rm =>
    have apart : rn ≠ rd ∧ rn ≠ rm := by simpa [Instr.predictable, Instr.writebackRegs] using allowed
    rw [swapByte, swapChecked_of_ne apart, settled_of_pos waiting]

end

end Sys2Proof.Machine
end

section
/-! The statements about the state: what every step keeps, what an instruction that completes has changed, and how it
stops (spec/10_state.md). -/

namespace Sys2Proof.Machine

/-! ### Every step -/

/-- `pc + 4` is as aligned as `pc` (R24). -/
theorem field_low_add_four {pc : Word} (aligned : field pc 0 2 = 0b00#2) : field (pc + 4#32) 0 2 = 0b00#2 := by
  have h := field_low_toNat pc
  have h' := field_low_toNat (pc + 4#32)
  rw [aligned] at h
  refine BitVec.eq_of_toNat_eq (h'.trans ?_)
  simp only [BitVec.toNat_add, BitVec.toNat_ofNat] at h ⊢
  omega

theorem Effect.invariant {i : Instr} {s s' : State} (effect : Effect i s s') (holds : Invariant s) : Invariant s' := by
  obtain ⟨wf, aligned, bounded⟩ := holds
  cases effect with
  | finish work =>
    obtain ⟨pc, -, -, settle, platform⟩ := work.keeps
    refine ⟨work.mem_wf wf, ?_, ?_⟩
    · simpa [pc] using field_low_add_four aligned
    · simp only [State.finish_bSettle, State.finish_platform, settle, platform]
      omega
  | switch => exact ⟨wf, field_low_add_four aligned, le_refl _⟩

/-- Settles O14: a step is the effect of an instruction, and each effect keeps the invariant. -/
theorem stepKeepsInvariant : Obligations.StepKeepsInvariant := by
  intro s s' holds next
  obtain ⟨i, effect⟩ := step_effect next
  exact effect.invariant holds

/-- Settles O18: work reaches no fixed field, and `MCR` no control bit but `B`. -/
theorem stepChangesNoFixedState : Obligations.StepChangesNoFixedState := by
  intro s s' next
  obtain ⟨i, effect⟩ := step_effect next
  cases effect with
  | finish work =>
    obtain ⟨-, control, -, -, platform⟩ := work.keeps
    exact ⟨platform, work.cpsr_fixed, fun k _ => congrArg (bit · k) control⟩
  | switch v _ _ others => exact ⟨rfl, rfl, others⟩

/-- Settles O15: the premises are about fields and control bits that no step changes (O18). -/
theorem stepKeepsPremises : Obligations.StepKeepsPremises := by
  intro s s' holds next
  obtain ⟨-, cpsr, control⟩ := stepChangesNoFixedState s s' next
  rw [Premises, cpsr, control 0 (by decide), control 1 (by decide)]
  exact holds

/-! ### Reset -/

/-- Settles O16: bit 7 of the reset value of the Control Register. -/
theorem resetIsLittleEndian : Obligations.ResetIsLittleEndian := by
  unfold Obligations.ResetIsLittleEndian
  decide

/-- Settles O17: the reset state's own values. -/
theorem resetHasInvariant : Obligations.ResetHasInvariant := by
  have invariant : Invariant State.reset := ⟨rfl, rfl, Nat.le_refl 0⟩
  have premises : Premises State.reset := ⟨rfl, rfl, rfl, rfl, rfl, rfl⟩
  exact ⟨invariant, premises, rfl, rfl⟩

/-! ### Every instruction that completes -/

/-- Settles O19: work changes the status register only by setting flags. -/
theorem onlyOrrWithSWritesFlags : Obligations.OnlyOrrWithSWritesFlags := by
  intro i s s' next changed
  by_contra silent
  apply changed
  cases exec_effect next with
  | finish work => exact work.cpsr_eq (Bool.eq_false_iff.mpr silent)
  | switch => rfl

/-- Settles O20: work leaves the Control Register alone, and the other way to complete is an `MCR`. -/
theorem onlyMcrWritesControl : Obligations.OnlyMcrWritesControl := by
  intro i s s' next changed
  cases exec_effect next with
  | finish work =>
    obtain ⟨-, control, -⟩ := work.keeps
    exact absurd control changed
  | switch _ mcr => exact mcr

/-- Settles O21: the ghost bit is written once, where an instruction finishes. -/
theorem subwordDoneTracksAccesses : Obligations.SubwordDoneTracksAccesses := by
  intro i s s' next
  cases exec_effect next with
  | finish work =>
    obtain ⟨-, -, ghost, -⟩ := work.keeps
    rw [State.finish_subwordDone, ghost]
  | switch _ mcr =>
    obtain ⟨c, rd, rfl⟩ := mcr
    simp [State.switch, Instr.subword]

/-- Settles O22: finishing counts down and keeps `B`; an `MCR` that changes `B` starts the count. -/
theorem settleCountsDown : Obligations.SettleCountsDown := by
  intro i s s' next
  cases exec_effect next with
  | finish work =>
    obtain ⟨-, control, -, settle, -⟩ := work.keeps
    simp [State.big, control, settle]
  | switch v _ changed => simp [State.switch, State.big, changed]

/-- Settles O23: work writes no register but those of `Instr.writes`, and finishing writes `pc` only. -/
theorem registerFrame : Obligations.RegisterFrame := by
  intro i s s' r next unwritten named
  cases exec_effect next with
  | finish work => rw [State.finish_reg _ _ named, work.reg_eq unwritten]
  | switch => exact State.reg_with_pc _ _ named

/-- Settles O24: only the work of a storing instruction writes memory. -/
theorem nonStoresLeaveMemory : Obligations.NonStoresLeaveMemory := by
  intro i s s' loads next a
  cases exec_effect next with
  | finish work => rw [State.finish_mem, work.mem_eq loads]
  | switch => rfl

/-! ### How an instruction stops -/

/-- Settles O6: `exec` looks at the register fields first, and the decoder answers no ill-formed instruction. -/
theorem registerFifteenRefused : Obligations.RegisterFifteenRefused := by
  intro i s names15
  refine ⟨by simp [exec_eq_perform, perform, names15], fun w decoded => ?_⟩
  simp [decode_sound w i decoded] at names15

/-- Settles O11: each effect moves `pc` on, `exec_of_top` is the top of the space, and a misaligned `pc` fetches
nothing (O8). -/
theorem programCounterAdvances : Obligations.ProgramCounterAdvances := by
  refine ⟨fun i s s' next => ?_, fun i s q top _ completes => ?_, fun s running arm misaligned => ?_⟩
  · cases exec_effect next with
    | finish work =>
      obtain ⟨pc, -⟩ := work.keeps
      rw [State.finish_pc, pc]
    | switch => rfl
  · obtain ⟨s', next⟩ := completes
    exact exec_of_top top next
  · exact (stepWithoutFetch s).2 running arm (.inl misaligned)

/-- Settles O59: the ready sub-word rule stops at its `BSettle` check. -/
theorem unsettledSubwordFaults : Obligations.UnsettledSubwordFaults := by
  intro i s named passed allowed sub waiting
  simpa [exec_eq_perform, perform, named, passed] using (ruleShape i).of_unsettled allowed sub waiting

end Sys2Proof.Machine
end

section
/-! Byte order and memory (spec/20_memory.md R50 to R61): which lane of its word an address selects, what the words,
half words and bytes read of a memory that was written, and the statements about the memory primitives. -/

namespace Sys2Proof.Machine

/-! ### Low address bits -/

theorem bit_zero_iff (w : Word) : bit w 0 = true ↔ w.toNat % 2 = 1 := by
  simp [bit, BitVec.getLsbD, Nat.testBit_zero]

theorem bit_one_iff (w : Word) : bit w 1 = true ↔ w.toNat / 2 % 2 = 1 := by
  simp [bit, BitVec.getLsbD, Nat.testBit_succ]

theorem bit_zero_eq_false_iff (w : Word) : bit w 0 = false ↔ w.toNat % 2 = 0 := by
  rw [← Bool.not_eq_true, bit_zero_iff]; omega

theorem align_eq_self_iff (x : Word) : align x = x ↔ x.toNat % 4 = 0 := by
  rw [← BitVec.toNat_inj, align_toNat]
  have := Nat.mod_le x.toNat 4
  omega

theorem align_eq_self_of_field {x : Word} (aligned : field x 0 2 = 0b00#2) : align x = x := by
  have low := field_low_toNat x
  rw [aligned] at low
  exact (align_eq_self_iff x).mpr low.symm

/-- The half-word lane by address bit 1 and the byte order (R51, R52). -/
theorem halfLane_eq (big : Bool) (addr : Word) : halfLane big addr = if big = bit addr 1 then 0 else 1 := by
  have high := bit_one_iff addr
  rw [halfLane, field_bit1_toNat]
  cases big <;> cases h : bit addr 1 <;> simp [h] at high ⊢ <;> omega

/-- The byte lane by the two low address bits and the byte order (R51, R52). -/
theorem byteLane_eq (big : Bool) (addr : Word) :
    byteLane big addr =
      let k := 2 * (bit addr 1).toNat + (bit addr 0).toNat
      if big then 3 - k else k := by
  have low := bit_zero_iff addr
  have high := bit_one_iff addr
  have k : (field addr 0 2).toNat = 2 * (bit addr 1).toNat + (bit addr 0).toNat := by
    rw [field_low_toNat]
    cases h0 : bit addr 0 <;> cases h1 : bit addr 1 <;> simp [h0, h1] at low high ⊢ <;> omega
  rw [byteLane, k]

section
variable {x : Word} {k : Nat} (aligned : align x = x) (hk : k < 4)
include aligned hk

theorem toNat_add_of_aligned : (x + BitVec.ofNat 32 k).toNat = x.toNat + k := by
  have base := (align_eq_self_iff x).mp aligned
  have := x.isLt
  rw [BitVec.toNat_add, BitVec.toNat_ofNat]
  omega

theorem align_add_of_aligned : align (x + BitVec.ofNat 32 k) = x := by
  have base := (align_eq_self_iff x).mp aligned
  refine BitVec.eq_of_toNat_eq ?_
  rw [align_toNat, toNat_add_of_aligned aligned hk]
  omega

theorem byteLane_add_of_aligned (big : Bool) : byteLane big (x + BitVec.ofNat 32 k) = if big then 3 - k else k := by
  have base := (align_eq_self_iff x).mp aligned
  have low : (field (x + BitVec.ofNat 32 k) 0 2).toNat = k := by
    rw [field_low_toNat, toNat_add_of_aligned aligned hk]
    omega
  rw [byteLane, low]

theorem halfLane_add_of_aligned (big : Bool) :
    halfLane big (x + BitVec.ofNat 32 k) = if big then 1 - k / 2 else k / 2 := by
  have base := (align_eq_self_iff x).mp aligned
  have low : (field (x + BitVec.ofNat 32 k) 1 1).toNat = k / 2 := by
    rw [field_bit1_toNat, toNat_add_of_aligned aligned hk]
    omega
  rw [halfLane, low]

end

/-! ### The two bytes of a half word -/

section
variable {h : Word} (even : bit h 0 = false)
include even

theorem toNat_succ_of_even : (h + 1#32).toNat = h.toNat + 1 := by
  have := (bit_zero_eq_false_iff h).mp even
  have := h.isLt
  rw [BitVec.toNat_add, BitVec.toNat_ofNat]
  omega

theorem align_succ_of_even : align (h + 1#32) = align h := by
  have := (bit_zero_eq_false_iff h).mp even
  refine BitVec.eq_of_toNat_eq ?_
  rw [align_toNat, align_toNat, toNat_succ_of_even even]
  omega

/-- The byte at an even address is the upper one of its half word under big endian, else the lower one (R51, R52). -/
theorem byteLane_of_even (big : Bool) : byteLane big h = 2 * halfLane big h + if big then 1 else 0 := by
  have := (bit_zero_eq_false_iff h).mp even
  rw [byteLane, halfLane, field_low_toNat, field_bit1_toNat]
  cases big <;> simp <;> omega

/-- The byte after it is the other one (R51, R52). -/
theorem byteLane_succ_of_even (big : Bool) :
    byteLane big (h + 1#32) = 2 * halfLane big h + if big then 0 else 1 := by
  have := (bit_zero_eq_false_iff h).mp even
  rw [byteLane, halfLane, field_low_toNat, field_bit1_toNat, toNat_succ_of_even even]
  cases big <;> simp <;> omega

end

/-! ### Bytes, half words and words -/

/-- Two adjacent byte lanes are a half word. -/
theorem field_append (w : Word) (lo : Nat) : field w (lo + 8) 8 ++ field w lo 8 = field w lo 16 :=
  BitVec.extractLsb'_append_extractLsb'_eq_extractLsb' rfl

/-- A word is its two half-word lanes. -/
theorem place_halves (w : Word) : place (field w 16 16) 16 ||| place (field w 0 16) 0 = w := by
  refine BitVec.eq_of_getLsbD_eq fun i hi => ?_
  change bit _ i = bit w i
  rw [bit_or, bit_place _ _ _ hi, bit_place _ _ _ hi]
  by_cases high : 16 ≤ i
  · have upper := field_getLsbD w 16 16 (i - 16) (by omega)
    have above : (field w 0 16).getLsbD (i - 0) = false := BitVec.getLsbD_of_ge _ _ high
    rw [upper, above, Nat.add_sub_cancel' high]
    simp [high]
  · have lower := field_getLsbD w 0 16 (i - 0) (by omega)
    rw [lower]
    simp [high]

/-- A half-word lane of a word is two cells (log 1). -/
theorem Memory.field_word_half (m : Memory) (a : Word) {j : Nat} (hj : j < 2) :
    field (m.word a) (16 * j) 16 = m.get (a.toNat + (2 * j + 1)) ++ m.get (a.toNat + 2 * j) := by
  rw [← Memory.field_word m a (by omega), ← Memory.field_word m a (by omega), ← field_append]
  congr 2 <;> omega

theorem Memory.get_putHalf (m : Memory) (big : Bool) (addr : Word) (v : Half) (c : Nat) :
    (m.putHalf big addr v).get c =
      if c = (align addr).toNat + (2 * halfLane big addr + 1) then v.extractLsb' 8 8
      else if c = (align addr).toNat + 2 * halfLane big addr then v.extractLsb' 0 8 else m.get c := by
  simp only [Memory.putHalf, Memory.get_put, Nat.add_assoc]

theorem extract_bytes_append (v : Half) : v.extractLsb' 8 8 ++ v.extractLsb' 0 8 = v :=
  (BitVec.extractLsb'_append_extractLsb'_eq_extractLsb' (start₁ := 0) rfl).trans BitVec.extractLsb'_eq_self

/-- Writing a half word replaces its lane and leaves the other one (R60). -/
theorem Memory.field_putHalf (m : Memory) (big : Bool) (addr : Word) (v : Half) {j : Nat} (hj : j < 2) :
    field ((m.putHalf big addr v).word (align addr)) (16 * j) 16 =
      if j = halfLane big addr then v else field (m.word (align addr)) (16 * j) 16 := by
  rw [Memory.field_word_half _ _ hj, Memory.field_word_half _ _ hj, Memory.get_putHalf, Memory.get_putHalf]
  by_cases same : j = halfLane big addr
  · simp [same, extract_bytes_append]
  · rw [if_neg same, if_neg (by omega), if_neg (by omega), if_neg (by omega), if_neg (by omega)]

/-- Writing a byte replaces its lane and leaves the other three (R61). -/
theorem Memory.field_putByte (m : Memory) (big : Bool) (addr : Word) (v : Byte) {j : Nat} (hj : j < 4) :
    field ((m.putByte big addr v).word (align addr)) (8 * j) 8 =
      if j = byteLane big addr then v else field (m.word (align addr)) (8 * j) 8 := by
  simp [Memory.field_word _ _ hj, Memory.putByte, Memory.get_put]

/-- Every other aligned word is unchanged (R60). -/
theorem Memory.word_putHalf_ne (m : Memory) (big : Bool) {x addr : Word} (h : align x ≠ align addr) (v : Half) :
    (m.putHalf big addr v).word (align x) = m.word (align x) := by
  have lane := halfLane_lt big addr
  refine Memory.word_congr fun k hk => ?_
  have low := align_cells_ne h hk (show 2 * halfLane big addr < 4 by omega)
  have high := align_cells_ne h hk (show 2 * halfLane big addr + 1 < 4 by omega)
  rw [Memory.get_putHalf, if_neg high, if_neg low]

/-- Every other aligned word is unchanged (R61). -/
theorem Memory.word_putByte_ne (m : Memory) (big : Bool) {x addr : Word} (h : align x ≠ align addr) (v : Byte) :
    (m.putByte big addr v).word (align x) = m.word (align x) := by
  refine Memory.word_congr fun k hk => ?_
  rw [Memory.putByte, Memory.get_put_ne _ (align_cells_ne h hk (byteLane_lt big addr))]

/-- A byte of another aligned word is unchanged (R59). -/
theorem Memory.byte_putWord_ne (m : Memory) (big : Bool) {x addr : Word} (h : align x ≠ align addr) (v : Word) :
    (m.putWord (align addr) v).byte big x = m.byte big x := by
  rw [Memory.byte, Memory.word_putWord_ne m h, Memory.byte]

/-- A half word written at an even address changes the two bytes there and no other (R60). -/
theorem Memory.byte_putHalf_ne (m : Memory) (big : Bool) {x addr : Word} (even : bit addr 0 = false)
    (first : x ≠ addr) (second : x ≠ addr + 1#32) (v : Half) :
    (m.putHalf big addr v).byte big x = m.byte big x := by
  have h0 := byte_cell_ne first big
  have h1 := byte_cell_ne second big
  rw [byteLane_of_even even] at h0
  rw [align_succ_of_even even, byteLane_succ_of_even even] at h1
  rw [Memory.byte_eq_get, Memory.byte_eq_get, Memory.get_putHalf, if_neg, if_neg]
  all_goals cases big <;> simp at h0 h1 ⊢ <;> omega

/-! ### Reads of a state -/

/-- A word reads back what was written (R59). -/
@[simp] theorem State.word_setWord_self (s : State) (addr v : Word) : (s.setWord addr v).word addr = v :=
  Memory.word_putWord_self _ _ _

/-- The byte of an aligned word at offset `k` is the lane counted from the end the byte order names (R51, R52). -/
theorem State.byte_add (s : State) {x : Word} (aligned : align x = x) {k : Nat} (hk : k < 4) :
    s.byte (x + BitVec.ofNat 32 k) = field (s.word x) (8 * if s.big then 3 - k else k) 8 := by
  rw [State.byte, Memory.byte, align_add_of_aligned aligned hk, byteLane_add_of_aligned aligned hk, State.word, aligned]

/-- So is the half word (R51, R52). -/
theorem State.half_add (s : State) {x : Word} (aligned : align x = x) {k : Nat} (hk : k < 4) :
    s.half (x + BitVec.ofNat 32 k) = field (s.word x) (16 * if s.big then 1 - k / 2 else k / 2) 16 := by
  rw [State.half, Memory.half, align_add_of_aligned aligned hk, halfLane_add_of_aligned aligned hk, State.word, aligned]

/-- A half word is its two bytes, the one at the lower address the more significant under big endian and the less
significant under little endian (R51, R52). -/
theorem State.half_eq_bytes (s : State) {h : Word} (even : bit h 0 = false) :
    s.half h = if s.big then s.byte h ++ s.byte (h + 1#32) else s.byte (h + 1#32) ++ s.byte h := by
  have lanes (j : Nat) (w : Word) : field w (16 * j) 16 = field w (8 * (2 * j + 1)) 8 ++ field w (8 * (2 * j)) 8 := by
    rw [← field_append]
    congr 2 <;> omega
  rw [State.half, State.byte, State.byte, Memory.half, Memory.byte, Memory.byte, align_succ_of_even even,
    byteLane_of_even even, byteLane_succ_of_even even, lanes]
  cases s.big <;> rfl

theorem bit_zero_of_aligned {x h : Word} (aligned : align x = x) (half : h = x ∨ h = x + 2#32) : bit h 0 = false := by
  have base := (align_eq_self_iff x).mp aligned
  rw [bit_zero_eq_false_iff]
  obtain rfl | rfl := half
  · omega
  · rw [toNat_add_of_aligned aligned (by decide)]
    omega

/-- Settles O28: `State.byte_add` and `State.half_add` at each offset, with `B` set. -/
theorem bigEndianLanes : Obligations.BigEndianLanes := by
  intro s x big aligned
  have bytes (k : Nat) (hk : k < 4) := s.byte_add aligned hk
  have halves (k : Nat) (hk : k < 4) := s.half_add aligned hk
  simp only [big, if_true] at bytes halves
  refine ⟨by rw [State.word, aligned], by simpa using halves 0 (by decide), halves 2 (by decide),
    by simpa using bytes 0 (by decide), bytes 1 (by decide), bytes 2 (by decide), bytes 3 (by decide), fun h half => ?_⟩
  simpa [big] using s.half_eq_bytes (bit_zero_of_aligned aligned half)

/-- Settles O29: the same offsets with `B` clear. -/
theorem littleEndianLanes : Obligations.LittleEndianLanes := by
  intro s x little aligned
  have bytes (k : Nat) (hk : k < 4) := s.byte_add aligned hk
  have halves (k : Nat) (hk : k < 4) := s.half_add aligned hk
  simp only [little, Bool.false_eq_true, if_false] at bytes halves
  refine ⟨by rw [State.word, aligned], by simpa using halves 0 (by decide), halves 2 (by decide),
    by simpa using bytes 0 (by decide), bytes 1 (by decide), bytes 2 (by decide), bytes 3 (by decide), fun h half => ?_⟩
  simpa [little] using s.half_eq_bytes (bit_zero_of_aligned aligned half)

/-- Settles O36: the lanes of O28 and O29, of the word just written. -/
theorem storedWordReadByBytes : Obligations.StoredWordReadByBytes := by
  intro s x v aligned t
  have word : t.word x = v := State.word_setWord_self s x v
  refine ⟨fun big => ?_, fun little => ?_⟩
  · obtain ⟨-, -, -, b0, b1, b2, b3, -⟩ := bigEndianLanes t x big aligned
    simp [b0, b1, b2, b3, word]
  · obtain ⟨-, -, -, b0, b1, b2, b3, -⟩ := littleEndianLanes t x little aligned
    simp [b0, b1, b2, b3, word]

/-! ### The checks of an access -/

section
variable {s : State} {addr : Word} {k : Out}

theorem loading_of_unmapped (h : s.mapped addr = false) : loading s addr k = .fault (.dataAbort addr) := by
  simp [loading, raise, h]

theorem storing_of_unmapped (h : s.mapped addr = false) : storing s addr k = .fault (.dataAbort addr) := by
  simp [storing, raise, h]

theorem storing_of_inText (mapped : s.mapped addr = true) (text : s.inText addr = true) :
    storing s addr k = .refused (.storeIntoText addr) := by
  simp [storing, mapped, text]

end

/-! ### The statements about the primitives -/

/-- Settles O10: the word stored at `pc` is read back, and the store changes neither `pc` nor what is mapped. -/
theorem loadedWordIsFetched : Obligations.LoadedWordIsFetched := by
  intro s w aligned mapped
  have stored : (s.withFetchWord 32 w).word s.pc = BitVec.ofNat 32 (w % 2 ^ 32) := State.word_setWord_self s s.pc _
  refine fetch_eq_some_iff.mpr ⟨aligned, mapped, stored.trans ?_⟩
  exact BitVec.eq_of_toNat_eq (by simp)

/-- Settles O31: the load's check, and the fetch of O8; neither they nor the word look at the Control Register. -/
theorem wordReadPrimitive : Obligations.WordReadPrimitive := by
  intro s addr k aligned
  have word : s.word addr = s.mem.word addr := by rw [State.word, align_eq_self_of_field aligned]
  refine ⟨loading_of_unmapped, loading_of_mapped, word, ?_, ?_, fun c => ⟨rfl, rfl, rfl⟩⟩
  · rintro rfl unmapped running arm
    exact (stepWithoutFetch s).2 running arm (.inr unmapped)
  · rintro rfl mapped
    exact fetch_eq_some_iff.mpr ⟨aligned, mapped, word⟩

/-- Settles O32: the load's check, and the two low address bits, case by case. -/
theorem subwordReadPrimitives : Obligations.SubwordReadPrimitives := by
  intro s addr k
  have mapped : s.mapped addr = s.mapped (align addr) := by rw [State.mapped, State.mapped, align_align]
  refine ⟨loading_of_unmapped, loading_of_mapped, mapped, fun _ => ?_, ?_⟩
  · rw [State.half, Memory.half, halfLane_eq]
    cases s.big <;> cases bit addr 1 <;> rfl
  · rw [State.byte, Memory.byte, byteLane_eq]
    cases s.big <;> cases bit addr 1 <;> cases bit addr 0 <;> rfl

/-- Settles O33: the store's check, and the word written and every other one read back. -/
theorem wordWritePrimitive : Obligations.WordWritePrimitive := by
  intro s addr v k
  refine ⟨storing_of_unmapped, storing_of_inText, storing_of_storable, State.word_setWord_self s addr v, ?_,
    fun c => ⟨rfl, rfl⟩⟩
  exact fun x other => Memory.word_putWord_ne s.mem other v

/-- Settles O34: the store's check, and the word read back by its two half words. -/
theorem halfWritePrimitive : Obligations.HalfWritePrimitive := by
  intro s addr v k _
  refine ⟨storing_of_unmapped, storing_of_inText, storing_of_storable, ?_, ?_⟩
  · have low : field ((s.setHalf addr v).word addr) 0 16 =
        if 0 = halfLane s.big addr then v else field (s.word addr) 0 16 :=
      Memory.field_putHalf s.mem s.big addr v (show 0 < 2 by decide)
    have high : field ((s.setHalf addr v).word addr) 16 16 =
        if 1 = halfLane s.big addr then v else field (s.word addr) 16 16 :=
      Memory.field_putHalf s.mem s.big addr v (show 1 < 2 by decide)
    rw [← place_halves ((s.setHalf addr v).word addr), low, high, halfLane_eq]
    by_cases lower : s.big = bit addr 1 <;> simp [lower]
  · exact fun x other => Memory.word_putHalf_ne s.mem s.big other v

/-- Settles O35: the store's check, and the word read back by its four lanes. -/
theorem byteWritePrimitive : Obligations.ByteWritePrimitive := by
  intro s addr v k
  refine ⟨storing_of_unmapped, storing_of_inText, storing_of_storable, ?_, ?_⟩
  · exact fun j hj => Memory.field_putByte s.mem s.big addr v hj
  · exact fun x other => Memory.word_putByte_ne s.mem s.big other v

end Sys2Proof.Machine
end

section
/-! The accesses of the loads, stores and swaps: their rules with the address that R99, R103 and R105 give, what they
store there, and how they stop (spec/20_memory.md R54 to R61, R75). -/

namespace Sys2Proof.Machine

/-! ### Rules with their addresses -/

/-- The transfer `T s` is made of the operands of `i` in the state `s`, as `Serves` says; its address is the one that
R99 and R103 give, and it does not depend on the Control Register. -/
structure Addresses (i : Instr) (T : State → Transfer) : Prop extends Serves i T where
  access : ∀ s, i.access s = some ((T s).addr s)
  with_control : ∀ s v, T { s with control := v } = T s

theorem Addresses.addr_eq {i : Instr} {T : State → Transfer} (on : Addresses i T) {s : State} {a : Word}
    (at_a : i.access s = some a) : (T s).addr s = a :=
  Option.some.inj ((on.access s).symm.trans at_a)

/-- The address column of the table of R99 and R103 is the address of the indexing that `P` and `W` give. -/
theorem effective_fst {p w : Bool} {x : Index} (indexing : Index.ofPW p w = some x) (u : Bool) (base off : Word) :
    (effective p w u base off).1 = accessAddress x u base off := by
  revert x; cases p <;> cases w <;> simp [Index.ofPW, Index.ofW, effective, accessAddress, indexed]

/-- The rules with a memory access, each on operands whose address is that of the instruction, and the others. -/
inductive AccessShape : Instr → (Word → State → Out) → Prop
  | noAccess {i f} (access : ∀ s, i.access s = none) (wide : i.wordAccess = false) : AccessShape i f
  | halfP0W1 {i} (forbidden : i.predictable = false) (wide : i.wordAccess = false) :
      AccessShape i fun word _ => raise (.unpredictable (.halfP0W1 word))
  | loadWord {i} (T : State → Transfer) (on : Addresses i T) (stores : i.stores = false) (sub : i.subword = false) :
      AccessShape i fun word s => loadWord (T s) word s
  | loadByte {i} (T : State → Transfer) (on : Addresses i T) (stores : i.stores = false) (sub : i.subword = true) :
      AccessShape i fun word s => loadByte (T s) word s
  | loadHalf {i} (T : State → Transfer) (on : Addresses i T) (stores : i.stores = false) (sub : i.subword = true) :
      AccessShape i fun word s => loadHalf (T s) word s
  | storeWord {i} (T : State → Transfer) (on : Addresses i T) (stores : i.stores = true) (sub : i.subword = false)
      (half : i.halfAccess = false) : AccessShape i fun word s => storeWord (T s) word s
  | storeByte {i} (T : State → Transfer) (on : Addresses i T) (stores : i.stores = true) (sub : i.subword = true)
      (half : i.halfAccess = false) : AccessShape i fun word s => storeByte (T s) word s
  | storeHalf {i} (T : State → Transfer) (on : Addresses i T) (stores : i.stores = true) (sub : i.subword = true)
      (half : i.halfAccess = true) : AccessShape i fun word s => storeHalf (T s) word s
  | swp (c : Cond) (rn rd rm : Reg) : AccessShape (.swp c rn rd rm) (swapWord rn rd rm)
  | swpb (c : Cond) (rn rd rm : Reg) : AccessShape (.swpb c rn rd rm) (swapByte rn rd rm)

section
variable {i : Instr} {p w u : Bool} {x : Index} {rn rd rm : Reg} (indexing : Index.ofPW p w = some x)
include indexing

theorem addresses_immTransfer {off : BitVec 12}
    (wb : i.writebackRegs = if x.writesBack then some (rn, rd, none) else none) (fields : i.regFields = [rn, rd])
    (access : ∀ s, i.access s = some (effective p w u (s.reg rn) (off.setWidth 32)).1) :
    Addresses i fun _ => immTransfer x u rn rd off where
  toServes := serves_immTransfer wb fields
  access s := by rw [access, effective_fst indexing]; rfl
  with_control _ _ := rfl

theorem addresses_regTransfer {n : BitVec 5} {sh : Shift}
    (wb : i.writebackRegs = if x.writesBack then some (rn, rd, some rm) else none)
    (fields : i.regFields = [rn, rd, rm])
    (access : ∀ s, i.access s = some (effective p w u (s.reg rn) (shiftOffset (s.reg rm) sh n s.cpsr.c)).1) :
    Addresses i fun s => regTransfer s x u rn rd n sh rm where
  toServes := serves_regTransfer wb fields
  access s := by rw [access, effective_fst indexing]; rfl
  with_control _ _ := rfl

theorem addresses_halfImmTransfer {h l : BitVec 4} (wb : i.writebackRegs = if p == w then some (rn, rd, none) else none)
    (fields : i.regFields = [rn, rd])
    (access : ∀ s, i.access s = some (effective p w u (s.reg rn) (splitOffset h l)).1) :
    Addresses i fun _ => halfImmTransfer x u rn rd h l where
  toServes := serves_halfImmTransfer (by rw [wb, Index.writesBack_of_ofPW indexing]) fields
  access s := by rw [access, effective_fst indexing]; rfl
  with_control _ _ := rfl

theorem addresses_halfRegTransfer (wb : i.writebackRegs = if p == w then some (rn, rd, some rm) else none)
    (fields : i.regFields = [rn, rd, rm])
    (access : ∀ s, i.access s = some (effective p w u (s.reg rn) (s.reg rm)).1) :
    Addresses i fun s => halfRegTransfer s x u rn rd rm where
  toServes := serves_halfRegTransfer (by rw [wb, Index.writesBack_of_ofPW indexing]) fields
  access s := by rw [access, effective_fst indexing]; rfl
  with_control _ _ := rfl

end

/-- A half-word rule has the shape its access has, or is the forbidden setting of `P` and `W` (R103). -/
theorem accessShape_halfIndexed {i : Instr} {p w : Bool} {access : Index → Word → State → Out}
    (legal : ∀ x, Index.ofPW p w = some x → AccessShape i (access x))
    (forbidden : p = false → w = true → i.predictable = false) (wide : i.wordAccess = false) :
    AccessShape i fun word s => halfIndexed word p w fun x => access x word s := by
  unfold halfIndexed
  cases indexing : Index.ofPW p w with
  | some x => exact legal x indexing
  | none =>
    obtain ⟨hp, hw⟩ := Index.ofPW_eq_none.mp indexing
    exact .halfP0W1 (forbidden hp hw) wide

theorem accessShape (i : Instr) : AccessShape i (rule i) := by
  have pre (w : Bool) : Index.ofPW true w = some (.ofW w) := rfl
  have post : Index.ofPW false false = some .postIndexed := rfl
  cases i with
  | orrImm | orrShiftImm | orrShiftReg | mrc | mcr => exact .noAccess (fun _ => rfl) rfl
  | ldrImm _ _ w =>
    exact .loadWord _ (addresses_immTransfer (pre w) (by cases w <;> rfl) rfl fun _ => rfl) rfl rfl
  | ldrImmPost => exact .loadWord _ (addresses_immTransfer post rfl rfl fun _ => rfl) rfl rfl
  | ldrReg _ _ w =>
    exact .loadWord _ (addresses_regTransfer (pre w) (by cases w <;> rfl) rfl fun _ => rfl) rfl rfl
  | ldrRegPost => exact .loadWord _ (addresses_regTransfer post rfl rfl fun _ => rfl) rfl rfl
  | strImm _ _ w =>
    exact .storeWord _ (addresses_immTransfer (pre w) (by cases w <;> rfl) rfl fun _ => rfl) rfl rfl rfl
  | strImmPost => exact .storeWord _ (addresses_immTransfer post rfl rfl fun _ => rfl) rfl rfl rfl
  | strReg _ _ w =>
    exact .storeWord _ (addresses_regTransfer (pre w) (by cases w <;> rfl) rfl fun _ => rfl) rfl rfl rfl
  | strRegPost => exact .storeWord _ (addresses_regTransfer post rfl rfl fun _ => rfl) rfl rfl rfl
  | ldrbImm _ _ w =>
    exact .loadByte _ (addresses_immTransfer (pre w) (by cases w <;> rfl) rfl fun _ => rfl) rfl rfl
  | ldrbImmPost => exact .loadByte _ (addresses_immTransfer post rfl rfl fun _ => rfl) rfl rfl
  | ldrbReg _ _ w =>
    exact .loadByte _ (addresses_regTransfer (pre w) (by cases w <;> rfl) rfl fun _ => rfl) rfl rfl
  | ldrbRegPost => exact .loadByte _ (addresses_regTransfer post rfl rfl fun _ => rfl) rfl rfl
  | strbImm _ _ w =>
    exact .storeByte _ (addresses_immTransfer (pre w) (by cases w <;> rfl) rfl fun _ => rfl) rfl rfl rfl
  | strbImmPost => exact .storeByte _ (addresses_immTransfer post rfl rfl fun _ => rfl) rfl rfl rfl
  | strbReg _ _ w =>
    exact .storeByte _ (addresses_regTransfer (pre w) (by cases w <;> rfl) rfl fun _ => rfl) rfl rfl rfl
  | strbRegPost => exact .storeByte _ (addresses_regTransfer post rfl rfl fun _ => rfl) rfl rfl rfl
  | ldrhImm =>
    refine accessShape_halfIndexed (fun x indexing => ?_) (by rintro rfl rfl; simp [Instr.predictable]) rfl
    exact .loadHalf _ (addresses_halfImmTransfer indexing rfl rfl fun _ => rfl) rfl rfl
  | ldrhReg =>
    refine accessShape_halfIndexed (fun x indexing => ?_) (by rintro rfl rfl; simp [Instr.predictable]) rfl
    exact .loadHalf _ (addresses_halfRegTransfer indexing rfl rfl fun _ => rfl) rfl rfl
  | strhImm =>
    refine accessShape_halfIndexed (fun x indexing => ?_) (by rintro rfl rfl; simp [Instr.predictable]) rfl
    exact .storeHalf _ (addresses_halfImmTransfer indexing rfl rfl fun _ => rfl) rfl rfl rfl
  | strhReg =>
    refine accessShape_halfIndexed (fun x indexing => ?_) (by rintro rfl rfl; simp [Instr.predictable]) rfl
    exact .storeHalf _ (addresses_halfRegTransfer indexing rfl rfl fun _ => rfl) rfl rfl rfl
  | swp c rn rd rm => exact .swp c rn rd rm
  | swpb c rn rd rm => exact .swpb c rn rd rm

/-- No word access is a sub-word access (R33, R54). -/
theorem Instr.subword_of_wordAccess {i : Instr} (wide : i.wordAccess = true) : i.subword = false := by
  cases i with
  | ldrImm | ldrImmPost | ldrReg | ldrRegPost | strImm | strImmPost | strReg | strRegPost | swp => rfl
  | _ => cases wide

/-! ### How an access stops -/

section
variable {i : Instr} {f : Word → State → Out} {s : State} {a : Word}

/-- With every other check passed, a load comes down to its check of memory, and so does a store or swap (R56 to
R61). -/
theorem AccessShape.admitted (shape : AccessShape i f) (allowed : i.predictable = true)
    (calm : i.subword = true → s.bSettle = 0) (at_a : i.access s = some a) (word : Word) :
    ∃ k, f word s = if i.stores then storing s a k else loading s a k := by
  cases shape with
  | noAccess none => simp [none] at at_a
  | halfP0W1 forbidden => simp [forbidden] at allowed
  | loadWord T on stores =>
    obtain rfl := on.addr_eq at_a
    rw [stores]
    exact ⟨_, checked_of_clash_none (on.clash_eq_none allowed s word)⟩
  | loadByte T on stores sub =>
    obtain rfl := on.addr_eq at_a
    rw [stores]
    exact ⟨_, (checked_of_clash_none (on.clash_eq_none allowed s word)).trans (settled_of_eq_zero (calm sub))⟩
  | loadHalf T on stores sub =>
    obtain rfl := on.addr_eq at_a
    rw [stores]
    exact ⟨_, (checked_of_clash_none (on.clash_eq_none allowed s word)).trans (settled_of_eq_zero (calm sub))⟩
  | storeWord T on stores =>
    obtain rfl := on.addr_eq at_a
    rw [stores]
    exact ⟨_, checked_of_clash_none (on.clash_eq_none allowed s word)⟩
  | storeByte T on stores sub =>
    obtain rfl := on.addr_eq at_a
    rw [stores]
    exact ⟨_, (checked_of_clash_none (on.clash_eq_none allowed s word)).trans (settled_of_eq_zero (calm sub))⟩
  | storeHalf T on stores sub =>
    obtain rfl := on.addr_eq at_a
    rw [stores]
    exact ⟨_, (checked_of_clash_none (on.clash_eq_none allowed s word)).trans (settled_of_eq_zero (calm sub))⟩
  | swp c rn rd rm =>
    obtain rfl : s.reg rn = a := by simpa [Instr.access] using at_a
    have apart : rn ≠ rd ∧ rn ≠ rm := by simpa [Instr.predictable, Instr.writebackRegs] using allowed
    rw [swapWord, swapChecked_of_ne apart]
    exact ⟨_, rfl⟩
  | swpb c rn rd rm =>
    obtain rfl : s.reg rn = a := by simpa [Instr.access] using at_a
    have apart : rn ≠ rd ∧ rn ≠ rm := by simpa [Instr.predictable, Instr.writebackRegs] using allowed
    rw [swapByte, swapChecked_of_ne apart, settled_of_eq_zero (calm rfl)]
    exact ⟨_, rfl⟩

theorem exec_admitted (named : i.wellFormed = true) (passed : conditionPassed i.cond s.cpsr = true)
    (allowed : i.predictable = true) (calm : i.subword = true → s.bSettle = 0) (at_a : i.access s = some a) :
    ∃ k, exec i s = if i.stores then storing s a k else loading s a k := by
  simpa [exec_eq_perform, perform, named, passed] using (accessShape i).admitted allowed calm at_a (encode i)

end

/-- Settles O55: the check of memory of an admitted access, which starts with whether the word is mapped. -/
theorem unmappedAccessAborts : Obligations.UnmappedAccessAborts := by
  intro i s a named passed allowed calm at_a unmapped
  obtain ⟨k, ran⟩ := exec_admitted named passed allowed calm at_a
  rw [ran, storing_of_unmapped unmapped, loading_of_unmapped unmapped, ite_self]

/-- Settles O56: the check of memory of an admitted store or swap. -/
theorem textIsImmutable : Obligations.TextIsImmutable := by
  intro i s a named passed allowed calm stores at_a mapped text
  obtain ⟨k, ran⟩ := exec_admitted named passed allowed calm at_a
  rw [ran, if_pos stores, storing_of_inText mapped text]

/-! ### What an access stores -/

/-- The memories an instruction with an access at `a` can leave: the one it found, or that one with one word, half word
or byte written at `a`, as wide as the access; a half word stored at an odd address replaces the word (log 8). -/
inductive Stored (i : Instr) (s : State) (a : Word) : Memory → Prop
  | nothing : Stored i s a s.mem
  | word (v : Word) (sub : i.subword = false) (half : i.halfAccess = false) : Stored i s a (s.mem.putWord (align a) v)
  | byte (v : Byte) (half : i.halfAccess = false) (sub : i.subword = true) : Stored i s a (s.mem.putByte s.big a v)
  | half (v : Half) (half : i.halfAccess = true) (sub : i.subword = true) (even : bit a 0 = false) :
      Stored i s a (s.mem.putHalf s.big a v)
  | oddHalf (v : Word) (half : i.halfAccess = true) (sub : i.subword = true) (odd : bit a 0 = true) :
      Stored i s a (s.mem.putWord (align a) v)

section
variable {i : Instr} {f : Word → State → Out} {s s' : State} {a word : Word}

theorem AccessShape.stored (shape : AccessShape i f) (stores : i.stores = true) (at_a : i.access s = some a)
    (next : f word s = .next s') : Stored i s a s'.mem := by
  cases shape with
  | noAccess none => simp [none] at at_a
  | halfP0W1 => simp at next
  | loadWord _ _ loads | loadByte _ _ loads | loadHalf _ _ loads => simp [loads] at stores
  | storeWord T on _ sub half =>
    obtain rfl := on.addr_eq at_a
    obtain ⟨-, -, -, rfl⟩ := storeWord_next.mp next
    simpa using Stored.word _ sub half
  | storeByte T on _ sub half =>
    obtain rfl := on.addr_eq at_a
    obtain ⟨-, -, -, -, rfl⟩ := storeByte_next.mp next
    simpa using Stored.byte _ half sub
  | storeHalf T on _ sub half =>
    obtain rfl := on.addr_eq at_a
    obtain ⟨-, -, -, -, rfl⟩ := storeHalf_next.mp next
    cases parity : bit ((T s).addr s) 0 with
    | true => simpa using Stored.oddHalf _ half sub parity
    | false => simpa using Stored.half _ half sub parity
  | swp c rn rd rm =>
    obtain rfl : s.reg rn = a := by simpa [Instr.access] using at_a
    obtain ⟨-, -, -, rfl⟩ := swapWord_next.mp next
    simpa using Stored.word _ rfl rfl
  | swpb c rn rd rm =>
    obtain rfl : s.reg rn = a := by simpa [Instr.access] using at_a
    obtain ⟨-, -, -, -, rfl⟩ := swapByte_next.mp next
    simpa using Stored.byte _ rfl rfl

theorem exec_stored (stores : i.stores = true) (at_a : i.access s = some a) (next : exec i s = .next s') :
    Stored i s a s'.mem := by
  obtain ⟨-, ⟨-, ran⟩ | ⟨-, -, rfl⟩⟩ := exec_next.mp next
  · exact (accessShape i).stored stores at_a ran
  · exact .nothing

/-- An instruction with an access leaves the byte order alone (R27). -/
theorem exec_big_eq (at_a : i.access s = some a) (next : exec i s = .next s') : s'.big = s.big := by
  by_contra changed
  obtain ⟨c, rd, rfl⟩ := onlyMcrWritesControl i s s' next fun same => changed (congrArg (bit · 7) same)
  cases at_a

/-- The bytes read after a store or swap are those of the memory it stored. -/
theorem exec_byte (stores : i.stores = true) (at_a : i.access s = some a) (next : exec i s = .next s') :
    ∃ m, Stored i s a m ∧ ∀ x, s'.byte x = m.byte s.big x :=
  ⟨s'.mem, exec_stored stores at_a next, fun x => by rw [State.byte, exec_big_eq at_a next]⟩

end

/-- Settles O25: a word access stores one aligned word at most. -/
theorem wordStoreFrame : Obligations.WordStoreFrame := by
  intro i s s' a x kind at_a next other
  obtain ⟨stores, wide⟩ := Bool.and_eq_true_iff.mp kind
  have sub := Instr.subword_of_wordAccess wide
  obtain ⟨m, stored, bytes⟩ := exec_byte stores at_a next
  rw [bytes, State.byte]
  cases stored with
  | nothing => rfl
  | word v => exact Memory.byte_putWord_ne s.mem s.big other v
  | byte _ _ narrow | half _ _ narrow | oddHalf _ _ narrow => simp [sub] at narrow

/-- Settles O26: a half-word access stores one half word at an even address and one aligned word at an odd one. -/
theorem halfStoreFrame : Obligations.HalfStoreFrame := by
  intro i s s' a x kind at_a next
  obtain ⟨stores, isHalf⟩ := Bool.and_eq_true_iff.mp kind
  obtain ⟨m, stored, bytes⟩ := exec_byte stores at_a next
  rw [bytes, State.byte]
  cases stored with
  | nothing => exact ⟨fun _ _ _ => rfl, fun _ _ => rfl⟩
  | word _ _ other | byte _ other => simp [isHalf] at other
  | half v _ _ even =>
    exact ⟨fun _ first second => Memory.byte_putHalf_ne s.mem s.big even first second v,
      fun odd => by simp [even] at odd⟩
  | oddHalf v _ _ odd =>
    exact ⟨fun even => by simp [odd] at even, fun _ other => Memory.byte_putWord_ne s.mem s.big other v⟩

/-- Settles O27: a byte access stores one byte. -/
theorem byteStoreFrame : Obligations.ByteStoreFrame := by
  intro i s s' a x kind at_a next other
  obtain ⟨stores, isByte⟩ := Bool.and_eq_true_iff.mp kind
  obtain ⟨sub, half⟩ : i.subword = true ∧ i.halfAccess = false := by simpa [Instr.byteAccess] using isByte
  obtain ⟨m, stored, bytes⟩ := exec_byte stores at_a next
  rw [bytes, State.byte]
  cases stored with
  | nothing => rfl
  | word _ wide => simp [sub] at wide
  | byte v => exact Memory.byte_putByte_ne s.mem s.big other v
  | half _ isHalf | oddHalf _ isHalf => simp [half] at isHalf

end Sys2Proof.Machine
end

section
/-! Word accesses and the Control Register: no operation that a word access uses reads it, and none writes it
(spec/20_memory.md R54). -/

namespace Sys2Proof.Machine

/-- The state with another value of the Control Register. -/
def State.withControl (s : State) (v : Word) : State := { s with control := v }

section
variable (s : State) (v : Word)

@[simp] theorem State.withControl_reg (r : Reg) : (s.withControl v).reg r = s.reg r := rfl

@[simp] theorem State.withControl_word (addr : Word) : (s.withControl v).word addr = s.word addr := rfl

@[simp] theorem Transfer.addr_withControl (t : Transfer) : t.addr (s.withControl v) = t.addr s := rfl

@[simp] theorem State.setWord_withControl (addr w : Word) :
    (s.withControl v).setWord addr w = (s.setWord addr w).withControl v := rfl

@[simp] theorem State.setReg_withControl (r : Reg) (w : Word) :
    (s.withControl v).setReg r w = (s.setReg r w).withControl v := by
  unfold State.setReg; split <;> rfl

@[simp] theorem Transfer.writeBack_withControl (t : Transfer) :
    t.writeBack (s.withControl v) = (t.writeBack s).withControl v := by
  unfold Transfer.writeBack; split <;> simp

@[simp] theorem loading_withControl (addr : Word) (k : Out) : loading (s.withControl v) addr k = loading s addr k := rfl

@[simp] theorem storing_withControl (addr : Word) (k : Out) : storing (s.withControl v) addr k = storing s addr k := rfl

/-- Completing neither reads nor writes the Control Register (R24, R34). -/
@[simp] theorem complete_withControl :
    complete (s.withControl v) = Out.map (·.withControl v) (complete s) := by
  by_cases top : s.pc = 0xFFFFFFFC#32
  · rw [complete_of_top top, complete_of_top (s := s.withControl v) top]; rfl
  · rw [complete_eq top, complete_eq (s := s.withControl v) top]; rfl

end

/-! ### A check passes the change of a next state on -/

section
variable (f : State → State) (s : State) (k : Out)

theorem map_checked (word : Word) (t : Transfer) : Out.map f (checked word t k) = checked word t (Out.map f k) := by
  unfold checked; split <;> rfl

theorem map_swapChecked (word : Word) (rn rd rm : Reg) :
    Out.map f (swapChecked word rn rd rm k) = swapChecked word rn rd rm (Out.map f k) := by
  unfold swapChecked; split <;> rfl

theorem map_loading (addr : Word) : Out.map f (loading s addr k) = loading s addr (Out.map f k) := by
  unfold loading; split <;> rfl

theorem map_storing (addr : Word) : Out.map f (storing s addr k) = storing s addr (Out.map f k) := by
  unfold storing; split
  · split <;> rfl
  · rfl

end

/-! ### The word accesses -/

section
variable (s : State) (v word : Word)

theorem loadWord_withControl (t : Transfer) :
    loadWord t word (s.withControl v) = Out.map (·.withControl v) (loadWord t word s) := by
  simp [loadWord, map_checked, map_loading]

theorem storeWord_withControl (t : Transfer) :
    storeWord t word (s.withControl v) = Out.map (·.withControl v) (storeWord t word s) := by
  simp [storeWord, map_checked, map_storing]

theorem swapWord_withControl (rn rd rm : Reg) :
    swapWord rn rd rm word (s.withControl v) = Out.map (·.withControl v) (swapWord rn rd rm word s) := by
  simp [swapWord, swapAddr, map_swapChecked, map_storing]

/-- The operands of a word access do not depend on the Control Register either (R99, R100). -/
theorem AccessShape.withControl {i : Instr} {f : Word → State → Out} (shape : AccessShape i f)
    (wide : i.wordAccess = true) : f word (s.withControl v) = Out.map (·.withControl v) (f word s) := by
  have sub := Instr.subword_of_wordAccess wide
  cases shape with
  | noAccess _ narrow | halfP0W1 _ narrow => simp [wide] at narrow
  | loadByte _ _ _ narrow | loadHalf _ _ _ narrow | storeByte _ _ _ narrow | storeHalf _ _ _ narrow =>
    simp [sub] at narrow
  | loadWord T on =>
    have operands : T (s.withControl v) = T s := on.with_control s v
    simpa [operands] using loadWord_withControl s v word (T s)
  | storeWord T on =>
    have operands : T (s.withControl v) = T s := on.with_control s v
    simpa [operands] using storeWord_withControl s v word (T s)
  | swp c rn rd rm => exact swapWord_withControl s v word rn rd rm
  | swpb => cases wide

end

/-- Settles O30: a word access passes the change of the Control Register on, whether its condition passes or fails, and
the fetch does not see it. -/
theorem wordAccessIgnoresByteOrder : Obligations.WordAccessIgnoresByteOrder := by
  intro i s v wide
  refine ⟨?_, rfl⟩
  change exec i (s.withControl v) = Out.map (·.withControl v) (exec i s)
  have cond : conditionPassed i.cond (s.withControl v).cpsr = conditionPassed i.cond s.cpsr := rfl
  rw [exec_eq_perform, exec_eq_perform, perform, perform, cond]
  split
  · split
    · exact (accessShape i).withControl s v (encode i) wide
    · exact complete_withControl s v
  · rfl

end Sys2Proof.Machine
end

section
/-! The instruction formats of spec/30_encoding.md R94 to R106: for each, the instruction its fields name, what the
decoder answers on a word built from the fields, and the word built again from the fields that are read of it. The two
directions of the round trip go over the formats. -/

namespace Sys2Proof

/-! ### Fields of a word -/

/-- A field inside a placed one is read from the placed value. -/
theorem field_place_inside {n m : Nat} (v : BitVec m) (p lo : Nat) (above : p ≤ lo) (inside : lo + n ≤ p + m)
    (h32 : p + m ≤ 32) : field (place v p) lo n = v.extractLsb' (lo - p) n := by
  apply BitVec.eq_of_getLsbD_eq
  intro i hi
  rw [field_getLsbD _ _ _ _ hi, bit_place _ _ _ (by omega)]
  simp [hi, show p ≤ lo + i by omega, show lo - p + i = lo + i - p by omega]

theorem field_one (w : Word) (k : Nat) : field w k 1 = BitVec.ofBool (bit w k) := by
  apply BitVec.eq_of_getLsbD_eq
  intro i hi
  obtain rfl : i = 0 := by omega
  rw [field_getLsbD _ _ _ _ hi]
  simp

/-- The two words agree on the fields of the widths `ns`, which lie side by side from bit `lo` on. -/
def SameFields (a b : Word) : Nat → List Nat → Prop
  | _, [] => True
  | lo, n :: ns => field a lo n = field b lo n ∧ SameFields a b (lo + n) ns

theorem SameFields.bit_eq {a b : Word} {ns : List Nat} {lo k : Nat} (same : SameFields a b lo ns) (above : lo ≤ k)
    (below : k < lo + ns.sum) : bit a k = bit b k := by
  induction ns generalizing lo with
  | nil => simp at below; omega
  | cons n ns ih =>
    obtain ⟨here, rest⟩ := same
    by_cases hk : k < lo + n
    · have h := congrArg (·.getLsbD (k - lo)) here
      simpa [field_getLsbD _ _ _ _ (show k - lo < n by omega), show lo + (k - lo) = k by omega] using h
    · exact ih rest (by omega) (by simp at below; omega)

/-- Fields that make up the whole word determine it: no bit of a format lies outside its fields (R111). -/
theorem SameFields.eq {a b : Word} (ns : List Nat) (whole : ns.sum = 32) (same : SameFields a b 0 ns) : a = b :=
  BitVec.eq_of_getLsbD_eq fun k hk => same.bit_eq (Nat.zero_le k) (by omega)

/-! ### The answer of `accept` -/

theorem accept_of_wellFormed {i : Instr} (named : i.wellFormed = true) (why : RefusedClass) :
    accept i true why = .instr i := by simp [accept, named]

/-- An answer that is no instruction with another encoding than `w`. -/
def Decoded.Encodes (w : Word) (d : Decoded) : Prop := ∀ i, d = .instr i → encode i = w

theorem Decoded.encodes_refused (w : Word) (why : RefusedClass) : (Decoded.refused why).Encodes w :=
  fun _ h => Decoded.noConfusion h

theorem Decoded.encodes_undefined (w : Word) : Decoded.undefined.Encodes w := fun _ h => Decoded.noConfusion h

theorem accept_encodes {w : Word} {i : Instr} {ok : Bool} {why : RefusedClass} (word : ok = true → encode i = w) :
    (accept i ok why).Encodes w := by
  intro j accepted
  unfold accept at accepted
  split at accepted
  · split at accepted
    · rename_i admitted
      cases accepted
      exact word admitted
    · cases accepted
  · cases accepted

/-! ### The instruction that the fields of a format name -/

/-- Format LS with an immediate offset (R98). -/
def Instr.ofLoadStoreImm (c : Cond) (p u b w l : Bool) (rn rd : Reg) (off : BitVec 12) : Instr :=
  match p, b, l with
  | true, false, true => .ldrImm c u w rn rd off
  | true, false, false => .strImm c u w rn rd off
  | true, true, true => .ldrbImm c u w rn rd off
  | true, true, false => .strbImm c u w rn rd off
  | false, false, true => .ldrImmPost c u rn rd off
  | false, false, false => .strImmPost c u rn rd off
  | false, true, true => .ldrbImmPost c u rn rd off
  | false, true, false => .strbImmPost c u rn rd off

/-- Format LS with a scaled register offset (R98). -/
def Instr.ofLoadStoreReg (c : Cond) (p u b w l : Bool) (rn rd : Reg) (n : BitVec 5) (sh : Shift) (rm : Reg) : Instr :=
  match p, b, l with
  | true, false, true => .ldrReg c u w rn rd n sh rm
  | true, false, false => .strReg c u w rn rd n sh rm
  | true, true, true => .ldrbReg c u w rn rd n sh rm
  | true, true, false => .strbReg c u w rn rd n sh rm
  | false, false, true => .ldrRegPost c u rn rd n sh rm
  | false, false, false => .strRegPost c u rn rd n sh rm
  | false, true, true => .ldrbRegPost c u rn rd n sh rm
  | false, true, false => .strbRegPost c u rn rd n sh rm

/-- Format LSH, with its bits 22, [11:8] and [3:0] as in `encodeHalf` (R102). -/
def Instr.ofHalf (c : Cond) (p u i w l : Bool) (rn rd : Reg) (high low : BitVec 4) : Instr :=
  match i, l with
  | true, true => .ldrhImm c p u w rn rd high low
  | true, false => .strhImm c p u w rn rd high low
  | false, true => .ldrhReg c p u w rn rd low
  | false, false => .strhReg c p u w rn rd low

/-- Format SW (R105). -/
def Instr.ofSwap (c : Cond) (b : Bool) (rn rd rm : Reg) : Instr := if b then .swpb c rn rd rm else .swp c rn rd rm

/-- Format CR (R106). -/
def Instr.ofCoprocessor (c : Cond) (l : Bool) (rd : Reg) : Instr := if l then .mrc c rd else .mcr c rd

theorem loadStoreImm_eq (c : Cond) (w : Word) :
    loadStoreImm c w = .ofLoadStoreImm c (bit w 24) (bit w 23) (bit w 22) (bit w 21) (bit w 20) (field w 16 4)
      (field w 12 4) (field w 0 12) := rfl

theorem loadStoreReg_eq (c : Cond) (w : Word) :
    loadStoreReg c w = .ofLoadStoreReg c (bit w 24) (bit w 23) (bit w 22) (bit w 21) (bit w 20) (field w 16 4)
      (field w 12 4) (field w 7 5) (Shift.ofCode (field w 5 2)) (field w 0 4) := rfl

/-- Only the register forms constrain bits [11:8] (R104). -/
theorem decodeHalf_eq (c : Cond) (w : Word) :
    decodeHalf c w = accept (.ofHalf c (bit w 24) (bit w 23) (bit w 22) (bit w 21) (bit w 20) (field w 16 4)
      (field w 12 4) (field w 8 4) (field w 0 4)) (bit w 22 || field w 8 4 == 0#4) .nonzeroShouldBeZero := by
  unfold decodeHalf
  cases bit w 22 <;> cases bit w 20 <;> rfl

/-- Format LS has an instruction for every setting of its bits but `P = 0` with `W = 1` (R98). -/
theorem encode_ofLoadStoreImm {c : Cond} {p u b w l : Bool} {rn rd : Reg} {off : BitVec 12}
    (ok : (p || !w) = true) :
    encode (.ofLoadStoreImm c p u b w l rn rd off) = encodeLoadStoreImm c p u b w l rn rd off := by
  cases p with
  | true => cases b <;> cases l <;> rfl
  | false =>
    obtain rfl : w = false := by simpa using ok
    cases b <;> cases l <;> rfl

theorem encode_ofLoadStoreReg {c : Cond} {p u b w l : Bool} {rn rd : Reg} {n : BitVec 5} {sh : Shift} {rm : Reg}
    (ok : (p || !w) = true) :
    encode (.ofLoadStoreReg c p u b w l rn rd n sh rm) = encodeLoadStoreReg c p u b w l rn rd n sh rm := by
  cases p with
  | true => cases b <;> cases l <;> rfl
  | false =>
    obtain rfl : w = false := by simpa using ok
    cases b <;> cases l <;> rfl

theorem encode_ofHalf {c : Cond} {p u i w l : Bool} {rn rd : Reg} {high low : BitVec 4}
    (ok : (i || high == 0#4) = true) :
    encode (.ofHalf c p u i w l rn rd high low) = encodeHalf c p u i w l rn rd high low := by
  cases i with
  | true => cases l <;> rfl
  | false =>
    obtain rfl : high = 0#4 := by simpa using ok
    cases l <;> rfl

theorem encode_ofSwap (c : Cond) (b : Bool) (rn rd rm : Reg) :
    encode (.ofSwap c b rn rd rm) = encodeSwap c b rn rd rm := by
  cases b <;> rfl

theorem encode_ofCoprocessor (c : Cond) (l : Bool) (rd : Reg) :
    encode (.ofCoprocessor c l rd) = encodeCoprocessor c l rd := by
  cases l <;> rfl

/-! ### What the decoder answers on a format -/

theorem decode_orrImm (c : Cond) (s : Bool) (rn rd : Reg) (r : BitVec 4) (k : BitVec 8) :
    decode (encode (.orrImm c s rn rd r k)) = accept (.orrImm c s rn rd r k) true .r15Operand := by
  simp (disch := omega) [decode, decodeClass1, decodeOrrImm, encode, encodeOrr, encodeCommon, placeBit, field_or,
    bit_or, bit_place, field_place_self, field_place_above, field_place_below, field_place_inside]

theorem decode_orrShiftImm (c : Cond) (s : Bool) (rn rd : Reg) (n : BitVec 5) (sh : Shift) (rm : Reg) :
    decode (encode (.orrShiftImm c s rn rd n sh rm)) = accept (.orrShiftImm c s rn rd n sh rm) true .r15Operand := by
  simp (disch := omega) [decode, decodeClass0, decodeOrrReg, encode, encodeOrr, encodeShifted, encodeCommon, placeBit,
    field_or, bit_or, bit_place, field_place_self, field_place_above, field_place_below, field_place_inside]

theorem decode_orrShiftReg (c : Cond) (s : Bool) (rn rd rs : Reg) (sh : Shift) (rm : Reg) :
    decode (encode (.orrShiftReg c s rn rd rs sh rm)) = accept (.orrShiftReg c s rn rd rs sh rm) true .r15Operand := by
  simp (disch := omega) [decode, decodeClass0, decodeOrrReg, encode, encodeOrr, encodeCommon, placeBit,
    field_or, bit_or, bit_place, field_place_self, field_place_above, field_place_below, field_place_inside]

theorem decode_encodeLoadStoreImm (c : Cond) (p u b w l : Bool) (rn rd : Reg) (off : BitVec 12) :
    decode (encodeLoadStoreImm c p u b w l rn rd off) =
      accept (.ofLoadStoreImm c p u b w l rn rd off) (p || !w) .userTranslation := by
  simp (disch := omega) [decode, acceptLoadStore, loadStoreImm_eq, encodeLoadStoreImm, encodeTransfer, encodeCommon,
    placeBit, field_or, bit_or, bit_place, field_place_self, field_place_above, field_place_below]

theorem decode_encodeLoadStoreReg (c : Cond) (p u b w l : Bool) (rn rd : Reg) (n : BitVec 5) (sh : Shift) (rm : Reg) :
    decode (encodeLoadStoreReg c p u b w l rn rd n sh rm) =
      accept (.ofLoadStoreReg c p u b w l rn rd n sh rm) (p || !w) .userTranslation := by
  simp (disch := omega) [decode, acceptLoadStore, loadStoreReg_eq, encodeLoadStoreReg, encodeShifted, encodeTransfer,
    encodeCommon, placeBit, field_or, bit_or, bit_place, field_place_self, field_place_above, field_place_below]

theorem decode_encodeHalf (c : Cond) (p u i w l : Bool) (rn rd : Reg) (high low : BitVec 4) :
    decode (encodeHalf c p u i w l rn rd high low) =
      accept (.ofHalf c p u i w l rn rd high low) (i || high == 0#4) .nonzeroShouldBeZero := by
  simp (disch := omega) [decode, decodeClass0, decodeHalf_eq, encodeHalf, encodeTransfer, encodeCommon, placeBit,
    field_or, bit_or, bit_place, field_place_self, field_place_above, field_place_below, field_place_inside]

theorem decode_encodeSwap (c : Cond) (b : Bool) (rn rd rm : Reg) :
    decode (encodeSwap c b rn rd rm) = accept (.ofSwap c b rn rd rm) true .r15Operand := by
  cases b <;>
    simp (disch := omega) [Instr.ofSwap, decode, decodeClass0, decodeSwap, encodeSwap, encodeCommon, placeBit, field_or,
      bit_or, bit_place, field_place_self, field_place_above, field_place_below, field_place_inside]

theorem decode_encodeCoprocessor (c : Cond) (l : Bool) (rd : Reg) :
    decode (encodeCoprocessor c l rd) = accept (.ofCoprocessor c l rd) true .coprocessorRegisterNotModelled := by
  simp (disch := omega) [Instr.ofCoprocessor, decode, decodeClass7, decodeCoprocessor, encodeCoprocessor, encodeCommon,
    placeBit, field_or, bit_or, bit_place, field_place_self, field_place_above, field_place_below, field_place_inside]

/-- Settles O1: the answer of the decoder on each format, for an instruction that names no register 15. -/
theorem decodeOfEncode : Obligations.DecodeOfEncode := by
  intro i named
  have accepted (why : RefusedClass) : accept i true why = .instr i := accept_of_wellFormed named why
  cases i with
  | orrImm => exact (decode_orrImm ..).trans (accepted _)
  | orrShiftImm => exact (decode_orrShiftImm ..).trans (accepted _)
  | orrShiftReg => exact (decode_orrShiftReg ..).trans (accepted _)
  | ldrImm | ldrImmPost | strImm | strImmPost | ldrbImm | ldrbImmPost | strbImm | strbImmPost =>
    exact (decode_encodeLoadStoreImm ..).trans (accepted _)
  | ldrReg | ldrRegPost | strReg | strRegPost | ldrbReg | ldrbRegPost | strbReg | strbRegPost =>
    exact (decode_encodeLoadStoreReg ..).trans (accepted _)
  | ldrhImm | ldrhReg | strhImm | strhReg => exact (decode_encodeHalf ..).trans (accepted _)
  | swp | swpb => exact (decode_encodeSwap ..).trans (accepted _)
  | mrc | mcr => exact (decode_encodeCoprocessor ..).trans (accepted _)

/-! ### The word built again from its fields -/

section
variable {c : Cond} {w : Word} (cond : c.code = field w 28 4)
include cond

theorem encode_orrImm_fields (cls : field w 25 3 = 0b001#3) (op : field w 21 4 = 0b1100#4) :
    encode (.orrImm c (bit w 20) (field w 16 4) (field w 12 4) (field w 8 4) (field w 0 8)) = w := by
  refine SameFields.eq [8, 4, 4, 4, 1, 4, 3, 4] rfl ?_
  simp (disch := omega) [SameFields, cond, cls, op, encode, encodeOrr, encodeCommon, placeBit, field_one, field_or,
    bit_or, bit_place, field_place_self, field_place_above, field_place_below]

theorem encode_orrShiftImm_fields (cls : field w 25 3 = 0b000#3) (op : field w 21 4 = 0b1100#4)
    (b4 : bit w 4 = false) :
    encode (.orrShiftImm c (bit w 20) (field w 16 4) (field w 12 4) (field w 7 5) (Shift.ofCode (field w 5 2))
      (field w 0 4)) = w := by
  refine SameFields.eq [4, 1, 2, 5, 4, 4, 1, 4, 3, 4] rfl ?_
  simp (disch := omega) [SameFields, cond, cls, op, b4, Shift.code_ofCode, encode, encodeOrr, encodeShifted,
    encodeCommon, placeBit, field_one, field_or, bit_or, bit_place, field_place_self, field_place_above,
    field_place_below]

theorem encode_orrShiftReg_fields (cls : field w 25 3 = 0b000#3) (op : field w 21 4 = 0b1100#4)
    (b7 : bit w 7 = false) (b4 : bit w 4 = true) :
    encode (.orrShiftReg c (bit w 20) (field w 16 4) (field w 12 4) (field w 8 4) (Shift.ofCode (field w 5 2))
      (field w 0 4)) = w := by
  refine SameFields.eq [4, 1, 2, 1, 4, 4, 4, 1, 4, 3, 4] rfl ?_
  simp (disch := omega) [SameFields, cond, cls, op, b7, b4, Shift.code_ofCode, encode, encodeOrr, encodeCommon,
    placeBit, field_one, field_or, bit_or, bit_place, field_place_self, field_place_above, field_place_below]

theorem encodeLoadStoreImm_fields (cls : field w 25 3 = 0b010#3) :
    encodeLoadStoreImm c (bit w 24) (bit w 23) (bit w 22) (bit w 21) (bit w 20) (field w 16 4) (field w 12 4)
      (field w 0 12) = w := by
  refine SameFields.eq [12, 4, 4, 1, 1, 1, 1, 1, 3, 4] rfl ?_
  simp (disch := omega) [SameFields, cond, cls, encodeLoadStoreImm, encodeTransfer, encodeCommon, placeBit, field_one,
    field_or, bit_or, bit_place, field_place_self, field_place_above, field_place_below]

theorem encodeLoadStoreReg_fields (cls : field w 25 3 = 0b011#3) (b4 : bit w 4 = false) :
    encodeLoadStoreReg c (bit w 24) (bit w 23) (bit w 22) (bit w 21) (bit w 20) (field w 16 4) (field w 12 4)
      (field w 7 5) (Shift.ofCode (field w 5 2)) (field w 0 4) = w := by
  refine SameFields.eq [4, 1, 2, 5, 4, 4, 1, 1, 1, 1, 1, 3, 4] rfl ?_
  simp (disch := omega) [SameFields, cond, cls, b4, Shift.code_ofCode, encodeLoadStoreReg, encodeShifted,
    encodeTransfer, encodeCommon, placeBit, field_one, field_or, bit_or, bit_place, field_place_self, field_place_above,
    field_place_below]

theorem encodeHalf_fields (cls : field w 25 3 = 0b000#3) (b7 : bit w 7 = true) (sh : field w 5 2 = 0b01#2)
    (b4 : bit w 4 = true) :
    encodeHalf c (bit w 24) (bit w 23) (bit w 22) (bit w 21) (bit w 20) (field w 16 4) (field w 12 4) (field w 8 4)
      (field w 0 4) = w := by
  refine SameFields.eq [4, 1, 2, 1, 4, 4, 4, 1, 1, 1, 1, 1, 3, 4] rfl ?_
  simp (disch := omega) [SameFields, cond, cls, b7, sh, b4, encodeHalf, encodeTransfer, encodeCommon, placeBit,
    field_one, field_or, bit_or, bit_place, field_place_self, field_place_above, field_place_below, field_place_inside]

theorem encodeSwap_fields (op : field w 23 5 = 0b00010#5) (low : field w 20 2 = 0b00#2) (zero : field w 8 4 = 0b0000#4)
    (b7 : bit w 7 = true) (sh : field w 5 2 = 0b00#2) (b4 : bit w 4 = true) :
    encodeSwap c (bit w 22) (field w 16 4) (field w 12 4) (field w 0 4) = w := by
  refine SameFields.eq [4, 1, 2, 1, 4, 4, 4, 2, 1, 5, 4] rfl ?_
  simp (disch := omega) [SameFields, cond, op, low, zero, b7, sh, b4, encodeSwap, encodeCommon, placeBit, field_one,
    field_or, bit_or, bit_place, field_place_self, field_place_above, field_place_below, field_place_inside]

theorem encodeCoprocessor_fields (cls : field w 25 3 = 0b111#3) (b24 : bit w 24 = false) (b4 : bit w 4 = true)
    (num : field w 8 4 = 0b1111#4) (opcode1 : field w 21 3 = 0b000#3) (crn : field w 16 4 = 0b0001#4)
    (crm : field w 0 4 = 0b0000#4) (opcode2 : field w 5 3 = 0b000#3) :
    encodeCoprocessor c (bit w 20) (field w 12 4) = w := by
  refine SameFields.eq [4, 1, 3, 4, 4, 4, 1, 3, 1, 3, 4] rfl ?_
  simp (disch := omega) [SameFields, cond, cls, b24, b4, num, opcode1, crn, crm, opcode2, encodeCoprocessor,
    encodeCommon, placeBit, field_one, field_or, bit_or, bit_place, field_place_self, field_place_above,
    field_place_below, field_place_inside]

/-! ### The decoder, part by part -/

theorem decodeSwap_encodes (b7 : bit w 7 = true) (sh : field w 5 2 = 0b00#2) (b4 : bit w 4 = true) :
    (decodeSwap c w).Encodes w := by
  unfold decodeSwap
  split
  · rename_i fixed
    simp only [Bool.and_eq_true, beq_iff_eq] at fixed
    obtain ⟨⟨op, low⟩, zero⟩ := fixed
    have word : encode (.ofSwap c (bit w 22) (field w 16 4) (field w 12 4) (field w 0 4)) = w :=
      (encode_ofSwap ..).trans (encodeSwap_fields cond op low zero b7 sh b4)
    split
    · rename_i b22
      exact accept_encodes fun _ => by simpa [Instr.ofSwap, b22] using word
    · rename_i b22
      exact accept_encodes fun _ => by simpa [Instr.ofSwap, b22] using word
  · exact Decoded.encodes_refused w _

theorem decodeOrrReg_encodes (cls : field w 25 3 = 0b000#3) (op : field w 21 4 = 0b1100#4)
    (b74 : ¬(bit w 7 && bit w 4) = true) : (decodeOrrReg c w).Encodes w := by
  unfold decodeOrrReg
  split
  · rename_i b4
    have b7 : bit w 7 = false := by simpa [b4] using b74
    exact accept_encodes fun _ => encode_orrShiftReg_fields cond cls op b7 b4
  · rename_i b4
    exact accept_encodes fun _ => encode_orrShiftImm_fields cond cls op (by simpa using b4)

theorem decodeClass0_encodes (cls : field w 25 3 = 0b000#3) : (decodeClass0 c w).Encodes w := by
  unfold decodeClass0
  split
  · rename_i b74
    obtain ⟨b7, b4⟩ := Bool.and_eq_true_iff.mp b74
    split
    · rename_i sh
      exact decodeSwap_encodes cond b7 (BitVec.eq_of_toNat_eq sh) b4
    · rename_i sh
      rw [decodeHalf_eq]
      exact accept_encodes fun ok =>
        (encode_ofHalf ok).trans (encodeHalf_fields cond cls b7 (BitVec.eq_of_toNat_eq sh) b4)
    · exact Decoded.encodes_refused w _
  · rename_i b74
    split
    · exact Decoded.encodes_refused w _
    · split
      · rename_i op
        exact decodeOrrReg_encodes cond cls (beq_iff_eq.mp op) b74
      · exact Decoded.encodes_refused w _

theorem decodeClass1_encodes (cls : field w 25 3 = 0b001#3) : (decodeClass1 c w).Encodes w := by
  unfold decodeClass1
  split
  · exact Decoded.encodes_refused w _
  · split
    · rename_i op
      exact accept_encodes fun _ => encode_orrImm_fields cond cls (beq_iff_eq.mp op)
    · exact Decoded.encodes_refused w _

theorem decodeClass7_encodes (cls : field w 25 3 = 0b111#3) : (decodeClass7 c w).Encodes w := by
  unfold decodeClass7
  split
  · exact Decoded.encodes_refused w _
  · rename_i b24
    split
    · rename_i b4
      refine accept_encodes fun ok => ?_
      simp only [Bool.and_eq_true, beq_iff_eq] at ok
      obtain ⟨⟨⟨⟨num, opcode1⟩, crn⟩, crm⟩, opcode2⟩ := ok
      exact (encode_ofCoprocessor ..).trans
        (encodeCoprocessor_fields cond cls (by simpa using b24) b4 num opcode1 crn crm opcode2)
    · exact Decoded.encodes_refused w _

end

/-- The last class of R110 is what the other seven leave. -/
theorem class_eq_seven {cls : BitVec 3} (n0 : cls.toNat ≠ 0) (n1 : cls.toNat ≠ 1) (n2 : cls.toNat ≠ 2)
    (n3 : cls.toNat ≠ 3) (n4 : cls.toNat ≠ 4) (n5 : cls.toNat ≠ 5) (n6 : cls.toNat ≠ 6) : cls = 0b111#3 := by
  have below := cls.isLt
  refine BitVec.eq_of_toNat_eq (show cls.toNat = 7 from ?_)
  omega

theorem decode_encodes (w : Word) : (decode w).Encodes w := by
  unfold decode
  split
  · exact Decoded.encodes_refused w _
  · rename_i c code
    have cond := Cond.code_of_ofCode code
    split
    · rename_i cls
      exact decodeClass0_encodes cond (BitVec.eq_of_toNat_eq cls)
    · rename_i cls
      exact decodeClass1_encodes cond (BitVec.eq_of_toNat_eq cls)
    · rename_i cls
      exact accept_encodes fun ok =>
        (encode_ofLoadStoreImm ok).trans (encodeLoadStoreImm_fields cond (BitVec.eq_of_toNat_eq cls))
    · rename_i cls
      split
      · exact Decoded.encodes_undefined w
      · rename_i b4
        exact accept_encodes fun ok => (encode_ofLoadStoreReg ok).trans
          (encodeLoadStoreReg_fields cond (BitVec.eq_of_toNat_eq cls) (by simpa using b4))
    · exact Decoded.encodes_refused w _
    · exact Decoded.encodes_refused w _
    · exact Decoded.encodes_refused w _
    · rename_i n0 n1 n2 n3 n4 n5 n6
      exact decodeClass7_encodes cond (class_eq_seven n0 n1 n2 n3 n4 n5 n6)

/-- Settles O2: each part of the decoder answers with an instruction whose format gives the fields back, and only with
instructions that name no register 15. -/
theorem encodeOfDecode : Obligations.EncodeOfDecode :=
  fun w i decoded => ⟨decode_encodes w i decoded, decode_sound w i decoded⟩

end Sys2Proof
end

section
/-! The statements about single words and conditions: the spaces the decoder refuses (spec/30_encoding.md R110 to R114),
the words written out from the formats, and the conditions (R92, R93). -/

namespace Sys2Proof

/-- 0b1111 is the only code that stands for no condition (R92, R114). -/
theorem Cond.ofCode_eq_none_iff {v : BitVec 4} : Cond.ofCode v = none ↔ v = 0b1111#4 := by
  revert v; decide

theorem decode_unconditional {w : Word} (space : field w 28 4 = 0b1111#4) :
    decode w = .refused .unconditionalSpace := by
  simp [decode, Cond.ofCode_eq_none_iff.mpr space]

theorem decode_undefinedSpace {w : Word} (conditional : field w 28 4 ≠ 0b1111#4) (cls : field w 25 3 = 0b011#3)
    (b4 : bit w 4 = true) : decode w = .undefined := by
  obtain ⟨c, code⟩ := Option.ne_none_iff_exists'.mp (mt Cond.ofCode_eq_none_iff.mp conditional)
  simp [decode, code, cls, b4]

end Sys2Proof

namespace Sys2Proof.Machine

/-- Settles O3: no condition has the code 0b1111, and a fetched word that is refused refuses the step. -/
theorem unconditionalSpaceRefused : Obligations.UnconditionalSpaceRefused := by
  intro s w space
  have decoded := decode_unconditional space
  exact ⟨decoded, fun running arm fetched => step_of_decode_refused running arm fetched decoded⟩

/-- Settles O4: every other code stands for a condition, and then bits [27:25] and 4 decide. -/
theorem undefinedSpaceFaults : Obligations.UndefinedSpaceFaults := by
  intro s w conditional cls b4
  have decoded := decode_undefinedSpace conditional cls b4
  exact ⟨decoded, fun running arm fetched => step_of_decode_undefined running arm fetched decoded⟩

/-- Settles O9: an aligned, mapped `pc` fetches `W[pc]`, whose refusal is the step's. -/
theorem refusedWordsRefuseTheStep : Obligations.RefusedWordsRefuseTheStep := by
  intro s why running arm aligned mapped decoded
  have fetched : fetch s = some (s.word s.pc) := fetch_eq_some_iff.mpr ⟨aligned, mapped, rfl⟩
  exact step_of_decode_refused running arm fetched decoded

/-- Settles O5: each word is the encoding of its instruction, which O1 gives back. -/
theorem sampleWordsDecode : Obligations.SampleWordsDecode := by
  have decoded {w : Word} {i : Instr} (word : encode i = w) (named : i.wellFormed = true) : decode w = .instr i :=
    word ▸ decodeOfEncode i named
  exact ⟨decoded (by decide) rfl, decoded (by decide) rfl, decoded (by decide) rfl, decoded (by decide) rfl,
    decoded (by decide) rfl, decoded (by decide) rfl, decoded (by decide) rfl, decoded (by decide) rfl⟩

/-- Settles O12: the codes by the list of conditions, the tests by the flags each looks at. -/
theorem conditionTable : Obligations.ConditionTable := by
  intro f
  refine ⟨⟨rfl, ?_⟩, ⟨rfl, ?_⟩, ⟨rfl, ?_⟩, ⟨rfl, ?_⟩, ⟨rfl, ?_⟩, ⟨rfl, ?_⟩, ⟨rfl, ?_⟩, ⟨rfl, ?_⟩, ⟨rfl, ?_⟩, ⟨rfl, ?_⟩,
    ⟨rfl, ?_⟩, ⟨rfl, ?_⟩, ⟨rfl, ?_⟩, ⟨rfl, ?_⟩, ⟨rfl, rfl⟩, rfl⟩
  all_goals simp [conditionPassed]

/-- Settles O13: an instruction whose condition fails is done with no work of its own. -/
theorem failedConditionOnlyAdvances : Obligations.FailedConditionOnlyAdvances :=
  fun _ _ named failed below => exec_next.mpr ⟨named, .inr ⟨failed, below, rfl⟩⟩

end Sys2Proof.Machine
end

section
/-! The shifter operands bit by bit (spec/30_encoding.md R96, R97). -/

namespace Sys2Proof.Machine

/-! ### Bits of a shifted word -/

section
variable (m : Word) (n : Nat) {k : Nat}

theorem bit_shiftLeft (inside : k < 32) : bit (m <<< n) k = (decide (n ≤ k) && bit m (k - n)) := by
  unfold bit
  rw [BitVec.getLsbD_shiftLeft]
  by_cases below : k < n
  · simp [below]
  · simp only [inside, below, show n ≤ k by omega, decide_true, decide_false, Bool.not_false, Bool.true_and]

theorem bit_shiftRight (k : Nat) : bit (m >>> n) k = bit m (k + n) := by
  simp [bit, Nat.add_comm]

theorem bit_of_ge (outside : 32 ≤ k) : bit m k = false := BitVec.getLsbD_of_ge m k outside

/-- Copies of bit 31 enter at the top. -/
theorem bit_sshiftRight (inside : k < 32) : bit (m.sshiftRight n) k = bit m (min (k + n) 31) := by
  unfold bit
  rw [BitVec.getLsbD_sshiftRight, BitVec.msb_eq_getLsbD_last]
  by_cases within : n + k < 32
  · rw [if_pos within, show min (k + n) 31 = n + k by omega]
    simp [show ¬ 32 ≤ k by omega]
  · rw [if_neg within, show min (k + n) 31 = 31 by omega]
    simp [show ¬ 32 ≤ k by omega]

/-- What leaves a rotated word at the bottom comes in at the top (spec/00_scope.md R8). -/
theorem bit_ror32 {n : Nat} (amount : n < 32) (inside : k < 32) : bit (ror32 m n) k = bit m ((k + n) % 32) := by
  unfold ror32
  split
  · simp [*, Nat.mod_eq_of_lt inside]
  · rw [bit_or, bit_shiftRight, bit_shiftLeft _ _ inside]
    by_cases within : k + n < 32
    · simp [Nat.mod_eq_of_lt within, show ¬ 32 - n ≤ k by omega]
    · rw [bit_of_ge m (by omega), Nat.mod_eq_sub_mod (by omega), Nat.mod_eq_of_lt (by omega)]
      simp [show 32 - n ≤ k by omega, show k - (32 - n) = k + n - 32 by omega]

end

/-! ### The tables -/

section
variable (m : Word) (c : Bool) {n : BitVec 5}

/-- `RRX`: the carry enters at bit 31, and every other bit moves down (R96). -/
theorem bit_rrx {k : Nat} (inside : k < 32) :
    bit (shiftByImmediate m .ror 0 c).1 k = if k = 31 then c else bit m (k + 1) := by
  have operand : (shiftByImmediate m .ror 0 c).1 = placeBit c 31 ||| m >>> 1 := rfl
  rw [operand, bit_or, bit_placeBit _ _ _ inside, bit_shiftRight]
  by_cases top : k = 31
  · simp [top, bit_of_ge]
  · simp [top]

/-- The columns of R96 for the amounts 1 to 31. -/
theorem shiftByImmediate_of_ne_zero (pos : n.toNat ≠ 0) :
    shiftByImmediate m .lsl n c = (m <<< n.toNat, bit m (32 - n.toNat)) ∧
      shiftByImmediate m .lsr n c = (m >>> n.toNat, bit m (n.toNat - 1)) ∧
      shiftByImmediate m .asr n c = (m.sshiftRight n.toNat, bit m (n.toNat - 1)) ∧
      shiftByImmediate m .ror n c = (ror32 m n.toNat, bit m (n.toNat - 1)) := by
  simp [shiftByImmediate, pos]

end

/-- Settles O37: amount 0 is read off the definition, and RRX and the other amounts are the shifted words' bits. -/
theorem shiftByImmediateTable : Obligations.ShiftByImmediateTable := by
  intro m c
  refine ⟨rfl, rfl, rfl, ⟨bit_rrx m c (by omega), rfl, fun k below => ?_⟩, fun n pos => ?_⟩
  · rw [bit_rrx m c (by omega), if_neg (by omega)]
  · obtain ⟨lsl, lsr, asr, ror⟩ := shiftByImmediate_of_ne_zero m c fun zero => pos (BitVec.eq_of_toNat_eq zero)
    rw [lsl, lsr, asr, ror]
    refine ⟨rfl, rfl, rfl, rfl, fun k inside => ⟨bit_shiftLeft m _ inside, ?_, bit_sshiftRight m _ inside,
      bit_ror32 m n.isLt inside⟩⟩
    rw [bit_shiftRight]
    by_cases within : k + n.toNat < 32
    · simp [within]
    · simp [within, bit_of_ge m (by omega : 32 ≤ k + n.toNat)]

/-- Settles O38: `s[4:0]` is the amount itself below 32, and above it only `ROR` looks at it. -/
theorem shiftByRegisterTable : Obligations.ShiftByRegisterTable := by
  intro m c n sh
  have low : (n.setWidth 5).toNat = n.toNat % 32 := by simp
  refine ⟨?_, fun pos small => ?_, ?_, fun large => ?_, fun large => ?_, fun large whole => ?_, fun large rest => ?_⟩
  · rintro rfl
    rfl
  · have amount : (n.setWidth 5).toNat = n.toNat := low.trans (Nat.mod_eq_of_lt small)
    have pos : n.toNat ≠ 0 := fun zero => pos (BitVec.eq_of_toNat_eq zero)
    obtain ⟨lsl, lsr, asr, ror⟩ := shiftByImmediate_of_ne_zero m c (n := n.setWidth 5) (amount ▸ pos)
    rw [amount] at lsl lsr asr ror
    cases sh with
    | lsl => rw [lsl]; simp [shiftByRegister, pos, small]
    | lsr => rw [lsr]; simp [shiftByRegister, pos, small]
    | asr => rw [asr]; simp [shiftByRegister, pos, small]
    | ror => rw [ror]; simp [shiftByRegister, pos, Nat.mod_eq_of_lt small]
  · rintro rfl
    exact ⟨rfl, rfl⟩
  · have above : n.toNat ≠ 0 ∧ ¬ n.toNat < 32 ∧ n.toNat ≠ 32 := by omega
    simp [shiftByRegister, above]
  · have above : n.toNat ≠ 0 ∧ ¬ n.toNat < 32 := by omega
    simp [shiftByRegister, signFill, above]
  · have above : n.toNat ≠ 0 := by omega
    simp [shiftByRegister, above, whole]
  · have above : n.toNat ≠ 0 := by omega
    obtain ⟨-, -, -, ror⟩ := shiftByImmediate_of_ne_zero m c (n := n.setWidth 5) (low ▸ rest)
    rw [ror, low]
    simp [shiftByRegister, above, rest]

end Sys2Proof.Machine
end

section
/-! The loads and stores with all their checks: the operand combinations that are UNPREDICTABLE (spec/30_encoding.md
R101, R103 to R105), and the half-word transfers at an odd address (spec/93_implementation_defined.md U2, U3). -/

namespace Sys2Proof.Machine

/-- An instruction that names no register 15 and whose condition passes runs its rule. -/
theorem exec_of_passed {i : Instr} {s : State} (named : i.wellFormed = true)
    (passed : conditionPassed i.cond s.cpsr = true) : exec i s = rule i (encode i) s := by
  simp [exec_eq_perform, perform, named, passed]

/-! ### Operand combinations that are UNPREDICTABLE -/

section
variable {t : Transfer} {word : Word} {k : Out}

theorem checked_of_rn_eq_rd (wb : t.index.writesBack = true) (clash : t.rn = t.rd) :
    checked word t k = .fault (.unpredictable (.writebackRnRd word)) := by
  simp [checked, Transfer.clash, raise, wb, clash]

theorem checked_of_rm_eq_rn (wb : t.index.writesBack = true) (apart : t.rn ≠ t.rd) (clash : t.rm = some t.rn) :
    checked word t k = .fault (.unpredictable (.writebackRmRn word)) := by
  simp [checked, Transfer.clash, raise, wb, apart, clash]

theorem swapChecked_of_clash {rn rd rm : Reg} (clash : rn = rd ∨ rn = rm) :
    swapChecked word rn rd rm k = .fault (.unpredictable (.swapBase word)) := by
  simp [swapChecked, raise, clash]

end

/-- The rule of a form that writes its base back begins with the check of its registers. -/
def ChecksWriteback (i : Instr) (rn rd : Reg) (rm : Option Reg) : Prop :=
  ∀ word s, ∃ t k, t.index.writesBack = true ∧ t.rn = rn ∧ t.rd = rd ∧ t.rm = rm ∧ rule i word s = checked word t k

theorem Serves.checksWriteback {i : Instr} {T : State → Transfer} {rn rd : Reg} {rm : Option Reg}
    (serves : Serves i T) (writes : i.writebackRegs = some (rn, rd, rm))
    (checks : ∀ word s, ∃ k, rule i word s = checked word (T s) k) : ChecksWriteback i rn rd rm := by
  intro word s
  obtain ⟨k, ran⟩ := checks word s
  have regs := (serves.writeback s).symm.trans writes
  split at regs
  · rename_i wb
    simp only [Option.some.injEq, Prod.mk.injEq] at regs
    obtain ⟨rn, rd, rm⟩ := regs
    exact ⟨T s, k, wb, rn, rd, rm, ran⟩
  · cases regs

theorem checksWriteback {i : Instr} {rn rd : Reg} {rm : Option Reg} (writes : i.writebackRegs = some (rn, rd, rm)) :
    ChecksWriteback i rn rd rm := by
  cases i with
  | ldrImm _ _ w | strImm _ _ w | ldrbImm _ _ w | strbImm _ _ w =>
    exact (serves_immTransfer (by cases w <;> rfl) rfl).checksWriteback writes fun _ _ => ⟨_, rfl⟩
  | ldrImmPost | strImmPost | ldrbImmPost | strbImmPost =>
    exact (serves_immTransfer (x := .postIndexed) rfl rfl).checksWriteback writes fun _ _ => ⟨_, rfl⟩
  | ldrReg _ _ w | strReg _ _ w | ldrbReg _ _ w | strbReg _ _ w =>
    exact (serves_regTransfer (by cases w <;> rfl) rfl).checksWriteback writes fun _ _ => ⟨_, rfl⟩
  | ldrRegPost | strRegPost | ldrbRegPost | strbRegPost =>
    exact (serves_regTransfer (x := .postIndexed) rfl rfl).checksWriteback writes fun _ _ => ⟨_, rfl⟩
  | ldrhImm _ p _ w | strhImm _ p _ w =>
    obtain rfl : p = w := by
      simp only [Instr.writebackRegs, Option.ite_none_right_eq_some, beq_iff_eq] at writes
      exact writes.1
    cases p with
    | true =>
      exact (serves_halfImmTransfer (x := .preIndexed) rfl rfl).checksWriteback writes fun _ _ => ⟨_, rfl⟩
    | false =>
      exact (serves_halfImmTransfer (x := .postIndexed) rfl rfl).checksWriteback writes fun _ _ => ⟨_, rfl⟩
  | ldrhReg _ p _ w | strhReg _ p _ w =>
    obtain rfl : p = w := by
      simp only [Instr.writebackRegs, Option.ite_none_right_eq_some, beq_iff_eq] at writes
      exact writes.1
    cases p with
    | true =>
      exact (serves_halfRegTransfer (x := .preIndexed) rfl rfl).checksWriteback writes fun _ _ => ⟨_, rfl⟩
    | false =>
      exact (serves_halfRegTransfer (x := .postIndexed) rfl rfl).checksWriteback writes fun _ _ => ⟨_, rfl⟩
  | orrImm | orrShiftImm | orrShiftReg | swp | swpb | mrc | mcr => cases writes

/-- Settles O57: the check of the registers comes first in the rule of every form that writes back, `Rn = Rd` before
`Rm = Rn`. -/
theorem writebackClashFaults : Obligations.WritebackClashFaults := by
  intro i s rn rd rm named passed writes
  obtain ⟨t, k, wb, rfl, rfl, rfl, ran⟩ := checksWriteback writes (encode i) s
  rw [exec_of_passed named passed, ran]
  exact ⟨checked_of_rn_eq_rd wb, checked_of_rm_eq_rn wb⟩

/-- Settles O58: `P = 0` with `W = 1` has no indexing, and a swap's rule begins with the check of its base. -/
theorem unpredictableFormsFault : Obligations.UnpredictableFormsFault := by
  refine ⟨fun i s named passed form => ?_, fun c rn rd rm i s form named passed clash => ?_⟩
  · rw [exec_of_passed named passed]
    obtain ⟨c, u, rn, rd, h, l, rfl | rfl⟩ | ⟨c, u, rn, rd, rm, rfl | rfl⟩ := form
    all_goals rfl
  · rw [exec_of_passed named passed]
    obtain rfl | rfl := form
    · exact swapChecked_of_clash clash
    · exact swapChecked_of_clash clash

/-! ### Transfers by the table of R99 and R103 -/

/-- Every setting of `P` and `W` but `P = 0` with `W = 1` has an indexing (R103). -/
theorem Index.ofPW_of_legal {p w : Bool} (legal : w = true → p = true) : ∃ x, Index.ofPW p w = some x := by
  refine Option.ne_none_iff_exists'.mp fun none => ?_
  obtain ⟨hp, hw⟩ := Index.ofPW_eq_none.mp none
  simp [legal hw] at hp

theorem halfIndexed_of_ofPW {word : Word} {p w : Bool} {x : Index} {k : Index → Out}
    (indexing : Index.ofPW p w = some x) : halfIndexed word p w k = k x := by
  simp [halfIndexed, indexing]

/-- `immedH : immedL` is the one number that the two fields make side by side (R103). -/
theorem splitOffset_eq_append (h l : BitVec 4) : splitOffset h l = (h ++ l).setWidth 32 := by
  refine BitVec.eq_of_getLsbD_eq fun k inside => ?_
  change bit (place h 4 ||| place l 0) k = _
  rw [bit_or, bit_place _ _ _ inside, bit_place _ _ _ inside, BitVec.getLsbD_setWidth, BitVec.getLsbD_append]
  by_cases low : k < 4
  · simp [inside, low, show ¬ 4 ≤ k by omega]
  · simp [inside, low, show 4 ≤ k by omega]

/-- The writeback column of the table of R99 and R103 is the writeback of the indexing that `P` and `W` give. -/
theorem effective_snd {p w : Bool} {x : Index} (indexing : Index.ofPW p w = some x) (u : Bool) (base off : Word) :
    (effective p w u base off).2 = if x.writesBack then some (indexed u base off) else none := by
  rw [Index.writesBack_of_ofPW indexing]
  cases p with
  | true => cases w <;> rfl
  | false =>
    cases w with
    | true => cases indexing
    | false => rfl

section
variable {t : Transfer} {p w : Bool} (indexing : Index.ofPW p w = some t.index) {s : State}
include indexing

theorem Transfer.addr_eq_effective : t.addr s = (effective p w t.up (s.reg t.rn) t.off).1 :=
  (effective_fst indexing ..).symm

theorem Transfer.writeBack_eq_effective :
    t.writeBack s = s.writeBack t.rn (effective p w t.up (s.reg t.rn) t.off).2 := by
  rw [effective_snd indexing]
  unfold Transfer.writeBack
  split <;> rfl

theorem Transfer.clash_eq_none_of_apart (apart : p = w → t.rn ≠ t.rd ∧ t.rm ≠ some t.rn) (word : Word) :
    t.clash word = none := by
  rw [Transfer.clash_eq_none, Index.writesBack_of_ofPW indexing]
  exact fun wb => apart (beq_iff_eq.mp wb)

variable (apart : p = w → t.rn ≠ t.rd ∧ t.rm ≠ some t.rn) (calm : s.bSettle = 0) (below : s.pc ≠ 0xFFFFFFFC#32)
  {word : Word}
include apart calm below

/-- `LDRH` at an odd address, with every check passed (U2; log 7). -/
theorem loadHalf_of_odd (mapped : s.mapped (effective p w t.up (s.reg t.rn) t.off).1 = true)
    (odd : bit (effective p w t.up (s.reg t.rn) t.off).1 0 = true) :
    loadHalf t word s = .next (s.afterLdrhOdd t.rn t.rd (effective p w t.up (s.reg t.rn) t.off)) := by
  rw [← Transfer.addr_eq_effective indexing] at mapped odd
  refine loadHalf_next.mpr ⟨Transfer.clash_eq_none_of_apart indexing apart word, calm, mapped, below, ?_⟩
  rw [if_pos odd, Transfer.writeBack_eq_effective indexing, State.afterLdrhOdd]

/-- `STRH` at an odd address, with every check passed (U3; log 8). -/
theorem storeHalf_of_odd (storable : s.storable (effective p w t.up (s.reg t.rn) t.off).1)
    (odd : bit (effective p w t.up (s.reg t.rn) t.off).1 0 = true) :
    storeHalf t word s = .next (s.afterStrhOdd t.rn (effective p w t.up (s.reg t.rn) t.off)) := by
  have addr := Transfer.addr_eq_effective indexing (s := s)
  rw [← addr] at storable odd
  refine storeHalf_next.mpr ⟨Transfer.clash_eq_none_of_apart indexing apart word, calm, storable, below, ?_⟩
  rw [if_pos odd, Transfer.writeBack_eq_effective indexing, addr, State.setWord_reg, State.afterStrhOdd]

end

/-- Settles O50: `loadHalf_of_odd` on the operands of the immediate and of the register form. -/
theorem ldrhOddResult : Obligations.LdrhOddResult := by
  refine ⟨fun c p u w rn rd h l s ready legal apart calm => ?_, fun c p u w rn rd rm s ready legal apart calm => ?_⟩
  · obtain ⟨named, passed, below⟩ := ready
    obtain ⟨x, indexing⟩ := Index.ofPW_of_legal legal
    rw [exec_of_passed named passed, ← splitOffset_eq_append]
    intro ea mapped odd
    exact (halfIndexed_of_ofPW indexing).trans
      (loadHalf_of_odd (t := halfImmTransfer x u rn rd h l) indexing (fun wb => ⟨apart wb, nofun⟩) calm
        below mapped odd)
  · obtain ⟨named, passed, below⟩ := ready
    obtain ⟨x, indexing⟩ := Index.ofPW_of_legal legal
    rw [exec_of_passed named passed]
    intro ea mapped odd
    have apart (wb : p = w) : rn ≠ rd ∧ some rm ≠ some rn := by simpa using apart wb
    exact (halfIndexed_of_ofPW indexing).trans
      (loadHalf_of_odd (t := halfRegTransfer s x u rn rd rm) indexing apart calm below mapped odd)

/-- Settles O52: `storeHalf_of_odd` on the operands of the immediate and of the register form. -/
theorem strhOddResult : Obligations.StrhOddResult := by
  refine ⟨fun c p u w rn rd h l s ready legal apart calm => ?_, fun c p u w rn rd rm s ready legal apart calm => ?_⟩
  · obtain ⟨named, passed, below⟩ := ready
    obtain ⟨x, indexing⟩ := Index.ofPW_of_legal legal
    rw [exec_of_passed named passed, ← splitOffset_eq_append]
    intro ea storable odd
    exact (halfIndexed_of_ofPW indexing).trans
      (storeHalf_of_odd (t := halfImmTransfer x u rn rd h l) indexing (fun wb => ⟨apart wb, nofun⟩) calm
        below storable odd)
  · obtain ⟨named, passed, below⟩ := ready
    obtain ⟨x, indexing⟩ := Index.ofPW_of_legal legal
    rw [exec_of_passed named passed]
    intro ea storable odd
    have apart (wb : p = w) : rn ≠ rd ∧ some rm ≠ some rn := by simpa using apart wb
    exact (halfIndexed_of_ofPW indexing).trans
      (storeHalf_of_odd (t := halfRegTransfer s x u rn rd rm) indexing apart calm below storable odd)

end Sys2Proof.Machine
end

section
/-! The configuration instructions `ORR`, `MRC` and `MCR` (spec/40_endian_config.md): the word of `MRC`, the result of
each, the ways `MCR` stops, and `BIGENDIAN` as the three of them in a row. -/

namespace Sys2Proof

/-! ### A word written from left to right -/

theorem place_append {n m : Nat} (a : BitVec n) (b : BitVec m) (lo : Nat) :
    place (a ++ b) lo = place a (lo + m) ||| place b lo := by
  refine BitVec.eq_of_getLsbD_eq fun k inside => ?_
  change bit (place (a ++ b) lo) k = bit (place a (lo + m) ||| place b lo) k
  rw [bit_or, bit_place _ _ _ inside, bit_place _ _ _ inside, bit_place _ _ _ inside, BitVec.getLsbD_append]
  by_cases low : k - lo < m
  · simp [low, show ¬ lo + m ≤ k by omega]
  · rw [BitVec.getLsbD_of_ge b _ (by omega)]
    by_cases above : lo ≤ k
    · simp [low, above, show lo + m ≤ k by omega, show k - lo - m = k - (lo + m) by omega]
    · simp [above, show ¬ lo + m ≤ k by omega]

theorem place_zero (w : Word) : place w 0 = w := by simp [place]

/-- The fields of the word of `MRC` from left to right (R106, R130). -/
theorem encode_mrc (c : Cond) (rd : Reg) :
    encode (.mrc c rd) = c.code ++ 0b111000010001#12 ++ rd ++ 0b111100010000#12 := by
  rw [← place_zero (c.code ++ 0b111000010001#12 ++ rd ++ 0b111100010000#12)]
  change _ = place (c.code ++ 0b111000010001#12 ++ rd ++ 0b111100010000#12) 0
  rw [place_append, place_append, place_append]
  refine SameFields.eq [4, 1, 3, 4, 4, 4, 1, 3, 1, 3, 4] rfl ?_
  simp (disch := omega) [SameFields, encode, encodeCoprocessor, encodeCommon, placeBit, field_or, field_place_self,
    field_place_above, field_place_below, field_place_inside]

end Sys2Proof

namespace Sys2Proof.Machine

/-! ### Ready instructions -/

theorem Ready.below_top {i : Instr} {s : State} : Ready i s → s.pc ≠ 0xFFFFFFFC#32 := fun ⟨_, _, below⟩ => below

theorem exec_of_ready {i : Instr} {s : State} (ready : Ready i s) : exec i s = rule i (encode i) s :=
  (exec_eq_perform i s).trans (perform_eq_rule ready)

/-! ### `ORR` -/

theorem orr_eq_afterOrr {f : Bool} {rn rd : Reg} {operand : Word × Bool} {s : State} (below : s.pc ≠ 0xFFFFFFFC#32) :
    orr f rn rd operand s = .next (s.afterOrr f rn rd operand.1 operand.2) :=
  orr_next.mpr ⟨below, rfl⟩

/-- Settles O39: `immediateOperand` is the rotated immediate with its carry-out. -/
theorem orrImmediateResult : Obligations.OrrImmediateResult := by
  intro c f rn rd rot imm s ready
  exact (exec_of_ready ready).trans (orr_eq_afterOrr ready.below_top)

/-- Settles O40: both register forms run `orr`, on the operand of R96 and of R97. -/
theorem orrRegisterResult : Obligations.OrrRegisterResult := by
  refine ⟨fun c f rn rd n sh rm s ready => ?_, fun c f rn rd rs sh rm s ready => ?_⟩
  · exact (exec_of_ready ready).trans (orr_eq_afterOrr ready.below_top)
  · have amount : field (s.reg rs) 0 8 = (s.reg rs).setWidth 8 := (BitVec.setWidth_eq_extractLsb' (by decide)).symm
    rw [amount]
    exact (exec_of_ready ready).trans (orr_eq_afterOrr ready.below_top)

/-! ### Privilege -/

theorem Mode.privileged_iff {m : Mode} : m.privileged = true ↔ m ≠ .user := bne_iff_ne

theorem privileged_of_user {word : Word} {s : State} {k : Out} (user : s.cpsr.mode = .user) :
    privileged word s k = .fault (.undefinedInstruction word) := by
  simp [privileged, raise, Mode.privileged, user]

/-! ### `MRC` -/

/-- Settles O41: the rule of `MRC` in a privileged mode, the refusal of O6, and `encode_mrc`. -/
theorem mrcResult : Obligations.MrcResult := by
  intro c rd s
  refine ⟨fun ready mode => ?_, fun names15 => ?_, encode_mrc c rd⟩
  · have below : (s.setReg rd s.control).pc ≠ 0xFFFFFFFC#32 := by simpa using ready.below_top
    calc exec (.mrc c rd) s
      _ = privileged (encode (.mrc c rd)) s (complete (s.setReg rd s.control)) := exec_of_ready ready
      _ = complete (s.setReg rd s.control) := privileged_of_privileged (Mode.privileged_iff.mpr mode)
      _ = .next (s.setReg rd s.control).done := complete_eq below
  · have illFormed : (Instr.mrc c rd).wellFormed = false := by
      rw [names15]
      rfl
    exact (registerFifteenRefused _ s illFormed).1

/-! ### `MCR` -/

/-- R133's comparison of bits [31:8] and [6:0] is that of every bit but bit 7. -/
theorem otherBitsDiffer_eq_false_iff {v old : Word} :
    otherBitsDiffer v old = false ↔ ∀ k, k ≠ 7 → bit v k = bit old k := by
  refine ⟨bit_eq_of_otherBitsDiffer, fun same => ?_⟩
  have fields (lo n : Nat) (apart : ∀ k, k < n → lo + k ≠ 7) : field v lo n = field old lo n := by
    refine BitVec.eq_of_getLsbD_eq fun k inside => ?_
    rw [field_getLsbD _ _ _ _ inside, field_getLsbD _ _ _ _ inside, same _ (apart k inside)]
  simp [otherBitsDiffer, fields 8 24 (by omega), fields 0 7 (by omega)]

section
variable {v word : Word} {s : State}

theorem writeControl_of_other {k : Nat} (other : k ≠ 7) (differs : bit v k ≠ bit s.control k) :
    writeControl v word s = .refused (.controlBitOtherThanB word) := by
  have differ : otherBitsDiffer v s.control = true := by
    rw [← Bool.not_eq_false, otherBitsDiffer_eq_false_iff]
    exact fun same => differs (same k other)
  simp [writeControl, differ]

section
variable (same : ∀ k, k ≠ 7 → bit v k = bit s.control k)
include same

theorem writeControl_of_late (changed : bit v 7 ≠ bit s.control 7) (late : s.subwordDone = true) :
    writeControl v word s = .fault (.unpredictable .bChangedAfterSubword) := by
  simp [writeControl, raise, otherBitsDiffer_eq_false_iff.mpr same, changed, late]

variable (below : s.pc ≠ 0xFFFFFFFC#32)
include below

/-- A value with no bit changed is the value that stands there. -/
theorem writeControl_of_kept (kept : bit v 7 = bit s.control 7) : writeControl v word s = .next s.done := by
  have same := otherBitsDiffer_eq_false_iff.mpr same
  refine writeControl_next.mpr ⟨same, below, .inl ⟨kept, ?_⟩⟩
  rw [eq_of_otherBitsDiffer same kept]

theorem writeControl_of_changed (changed : bit v 7 ≠ bit s.control 7) (fresh : s.subwordDone = false) :
    writeControl v word s = .next (s.switch v) :=
  writeControl_next.mpr ⟨otherBitsDiffer_eq_false_iff.mpr same, below, .inr ⟨changed, fresh, rfl⟩⟩

end

end

theorem exec_mcr_of_ready {c : Cond} {rd : Reg} {s : State} (ready : Ready (.mcr c rd) s)
    (mode : s.cpsr.mode ≠ .user) : exec (.mcr c rd) s = writeControl (s.reg rd) (encode (.mcr c rd)) s :=
  (exec_of_ready ready).trans (privileged_of_privileged (Mode.privileged_iff.mpr mode))

/-- Settles O42: the two ways `writeControl` completes. -/
theorem mcrResult : Obligations.McrResult := by
  intro c rd s ready mode same
  rw [exec_mcr_of_ready ready mode]
  exact ⟨writeControl_of_kept same ready.below_top, writeControl_of_changed same ready.below_top⟩

/-- Settles O43: the privilege check comes first, then R133's, then R134's. -/
theorem coprocessorStops : Obligations.CoprocessorStops := by
  refine ⟨fun c rd s ready => ⟨fun user => ?_, fun mode other => ?_, fun mode same changed late => ?_⟩,
    fun c rd s ready user => ?_⟩
  · exact (exec_of_ready ready).trans (privileged_of_user user)
  · obtain ⟨k, other, differs⟩ := other
    exact (exec_mcr_of_ready ready mode).trans (writeControl_of_other other differs)
  · exact (exec_mcr_of_ready ready mode).trans (writeControl_of_late same changed late)
  · exact (exec_of_ready ready).trans (privileged_of_user user)

/-! ### `BIGENDIAN`, the three in a row -/

/-- `ORR` with `0x80` sets bit 7 and no other. -/
theorem bit_or_80 (c : Word) (k : Nat) : bit (c ||| 0x80#32) k = (bit c k || decide (k = 7)) := by
  by_cases inside : k < 32
  · rw [bit_or, show 0x80#32 = placeBit true 7 from rfl, bit_placeBit _ _ _ inside, Bool.and_true]
  · rw [bit_of_ge _ (by omega), bit_of_ge _ (by omega)]
    simp
    omega

/-- Of two writes of one register the second stays. -/
theorem State.setReg_setReg (s : State) (r : Reg) (v w : Word) : (s.setReg r v).setReg r w = s.setReg r w := by
  by_cases h : r.toNat < 15
  · simp [State.setReg, h]
  · simp [State.setReg, h]

theorem State.done_setReg (s : State) (r : Reg) (v : Word) : s.done.setReg r v = (s.setReg r v).done := by
  by_cases h : r.toNat < 15
  · simp [State.setReg, State.done, h]
  · simp [State.setReg, State.done, h]

/-- Where three instructions have room, none of them stands at the last word of the address space (R24). -/
theorem ne_top_of_room {pc : Word} (room : pc.toNat + 12 < 2 ^ 32) :
    pc ≠ 0xFFFFFFFC#32 ∧ pc + 4#32 ≠ 0xFFFFFFFC#32 ∧ pc + 4#32 + 4#32 ≠ 0xFFFFFFFC#32 := by
  bv_omega

/-- `MRC` and `ORR` leave the new value in `r0`, and the Control Register as it was (R137). -/
theorem exec_mrc_orr {s : State} (mode : s.cpsr.mode ≠ .user) (room : s.pc.toNat + 12 < 2 ^ 32) :
    Out.andThen (exec (.mrc .al 0) s) (exec (.orrImm .al false 0 0 0 0x80)) =
      .next (s.setReg 0 (s.control ||| 0x80#32)).done.done := by
  obtain ⟨top, top4, -⟩ := ne_top_of_room room
  let s₁ := (s.setReg 0 s.control).done
  have read : exec (.mrc .al 0) s = .next s₁ := (mrcResult .al 0 s).1 ⟨rfl, rfl, top⟩ mode
  have below : s₁.pc ≠ 0xFFFFFFFC#32 := by simpa [s₁] using top4
  have result : s₁.afterOrr false 0 0 0x80#32 s₁.cpsr.c = (s.setReg 0 (s.control ||| 0x80#32)).done.done := by
    have old : s₁.reg 0 = s.control := (State.done_reg _ (by decide)).trans (State.reg_setReg_self s (by decide) _)
    calc s₁.afterOrr false 0 0 0x80#32 s₁.cpsr.c
      _ = (s₁.setReg 0 (s₁.reg 0 ||| 0x80#32)).done := rfl
      _ = (s.setReg 0 (s.control ||| 0x80#32)).done.done := by rw [old, State.done_setReg, State.setReg_setReg]
  rw [read, ← result]
  exact orrImmediateResult .al false 0 0 0 0x80 s₁ ⟨rfl, rfl, below⟩

/-- Settles O44: after `exec_mrc_orr` the `MCR` sees a value that differs in no bit but bit 7, which it sets (O42). -/
theorem bigEndianMacroSetsB : Obligations.BigEndianMacroSetsB := by
  intro s mode room fresh
  rw [exec_mrc_orr mode room]
  obtain ⟨-, -, top8⟩ := ne_top_of_room room
  let v := s.control ||| 0x80#32
  let s₂ := (s.setReg 0 v).done.done
  have value : s₂.reg 0 = v := by simp [s₂, State.done_reg, State.reg_setReg_self]
  have control : s₂.control = s.control := by simp [s₂]
  have others : ∀ k, k ≠ 7 → bit v k = bit s.control k := fun k other => by simp [v, bit_or_80, other]
  have bit7 : bit v 7 = true := by simp [v, bit_or_80]
  have mcr := mcrResult .al 0 s₂ ⟨rfl, rfl, by simpa [s₂] using top8⟩ (by simpa [s₂] using mode)
  rw [value, control] at mcr
  obtain ⟨kept, changed⟩ := mcr others
  change exec (.mcr .al 0) s₂ = _
  cases big : s.big with
  | true =>
    have same : bit v 7 = bit s.control 7 := bit7.trans big.symm
    have whole : s.control ||| 0x80#32 = s.control :=
      eq_of_otherBitsDiffer (otherBitsDiffer_eq_false_iff.mpr others) same
    rw [kept same]
    simp [s₂, v, State.done, whole, BitVec.add_assoc, Nat.sub_sub]
  | false =>
    have differs : bit v 7 ≠ bit s.control 7 := by simp [bit7, show bit s.control 7 = false from big]
    rw [changed differs (by simpa [s₂] using fresh big)]
    simp [s₂, v, State.done, BitVec.add_assoc]

end Sys2Proof.Machine
end

section
/-! The word accesses `LDR`, `STR` and `SWP` with every check passed (spec/41_word_access.md): the two rules that the
eight forms of `LDR` and `STR` share, on the table of R99, and the forms as the operands they give to these rules. -/

namespace Sys2Proof.Machine

section
variable {t : Transfer} {p w : Bool} (indexing : Index.ofPW p w = some t.index) {s : State}
  (apart : p = w → t.rn ≠ t.rd ∧ t.rm ≠ some t.rn) (below : s.pc ≠ 0xFFFFFFFC#32) {word : Word}
include indexing apart below

/-- `LDR` with every check passed: the base is written back before `Rd` gets the rotated word (R160). -/
theorem loadWord_of_mapped (mapped : s.mapped (effective p w t.up (s.reg t.rn) t.off).1 = true) :
    loadWord t word s = .next (s.afterLdr t.rn t.rd (effective p w t.up (s.reg t.rn) t.off)) := by
  have addr := Transfer.addr_eq_effective indexing (s := s)
  rw [← addr] at mapped
  refine loadWord_next.mpr ⟨Transfer.clash_eq_none_of_apart indexing apart word, mapped, below, ?_⟩
  rw [Transfer.writeBack_eq_effective indexing, addr, State.afterLdr, loadRotation]

/-- `STR` with every check passed: the store leaves the base register alone, so the base written back is that of the
state before it (R161). -/
theorem storeWord_of_storable (storable : s.storable (effective p w t.up (s.reg t.rn) t.off).1) :
    storeWord t word s = .next (s.afterStr t.rn t.rd (effective p w t.up (s.reg t.rn) t.off)) := by
  have addr := Transfer.addr_eq_effective indexing (s := s)
  rw [← addr] at storable
  refine storeWord_next.mpr ⟨Transfer.clash_eq_none_of_apart indexing apart word, storable, below, ?_⟩
  rw [Transfer.writeBack_eq_effective indexing, addr, State.setWord_reg, State.afterStr]

end

/-- An offset register apart from the base, as the check of R101 (c) compares the two. -/
theorem apart_of_registers {rn rd rm : Reg} (apart : rn ≠ rd ∧ rm ≠ rn) : rn ≠ rd ∧ some rm ≠ some rn :=
  apart.imp_right (mt Option.some.inj)

/-- Settles O45: `loadWord_of_mapped` on the operands of each form; `P = 0` always writes back (R99). -/
theorem ldrResult : Obligations.LdrResult := by
  refine ⟨fun c u w rn rd off s ready apart => ?_, fun c u rn rd off s ready apart => ?_,
    fun c u w rn rd n sh rm s ready apart => ?_, fun c u rn rd n sh rm s ready apart => ?_⟩
  all_goals
    intro ea mapped
    refine (exec_of_ready ready).trans ?_
  · exact loadWord_of_mapped (t := immTransfer (.ofW w) u rn rd off) (p := true) rfl
      (fun wb => ⟨apart wb.symm, nofun⟩) ready.below_top mapped
  · exact loadWord_of_mapped (t := immTransfer .postIndexed u rn rd off) (p := false) rfl
      (fun _ => ⟨apart, nofun⟩) ready.below_top mapped
  · exact loadWord_of_mapped (t := regTransfer s (.ofW w) u rn rd n sh rm) (p := true) rfl
      (fun wb => apart_of_registers (apart wb.symm)) ready.below_top mapped
  · exact loadWord_of_mapped (t := regTransfer s .postIndexed u rn rd n sh rm) (p := false) rfl
      (fun _ => apart_of_registers apart) ready.below_top mapped

/-- Settles O46: `storeWord_of_storable` on the operands of each form; `P = 0` always writes back (R99). -/
theorem strResult : Obligations.StrResult := by
  refine ⟨fun c u w rn rd off s ready apart => ?_, fun c u rn rd off s ready apart => ?_,
    fun c u w rn rd n sh rm s ready apart => ?_, fun c u rn rd n sh rm s ready apart => ?_⟩
  all_goals
    intro ea storable
    refine (exec_of_ready ready).trans ?_
  · exact storeWord_of_storable (t := immTransfer (.ofW w) u rn rd off) (p := true) rfl
      (fun wb => ⟨apart wb.symm, nofun⟩) ready.below_top storable
  · exact storeWord_of_storable (t := immTransfer .postIndexed u rn rd off) (p := false) rfl
      (fun _ => ⟨apart, nofun⟩) ready.below_top storable
  · exact storeWord_of_storable (t := regTransfer s (.ofW w) u rn rd n sh rm) (p := true) rfl
      (fun wb => apart_of_registers (apart wb.symm)) ready.below_top storable
  · exact storeWord_of_storable (t := regTransfer s .postIndexed u rn rd n sh rm) (p := false) rfl
      (fun _ => apart_of_registers apart) ready.below_top storable

/-- Settles O53: the checks of `swapWord` are the premises; none of them compares `Rd` with `Rm` (R105, R162). -/
theorem swpResult : Obligations.SwpResult := by
  intro c rn rd rm s ready base_rd base_rm storable
  refine (exec_of_ready ready).trans ?_
  exact swapWord_next.mpr ⟨⟨base_rd, base_rm⟩, storable, ready.below_top, rfl⟩

end Sys2Proof.Machine
end

section
/-! The half-word accesses `LDRH` and `STRH` at an even address with every check passed (spec/42_halfword_access.md):
one rule for each, on the table of R103, and the two forms as the operands they give to it. -/

namespace Sys2Proof.Machine

section
variable {t : Transfer} {p w : Bool} (indexing : Index.ofPW p w = some t.index) {s : State}
  (apart : p = w → t.rn ≠ t.rd ∧ t.rm ≠ some t.rn) (calm : s.bSettle = 0) (below : s.pc ≠ 0xFFFFFFFC#32) {word : Word}
include indexing apart calm below

/-- `LDRH` at an even address, with every check passed: the base is written back before `Rd` gets the zero-extended
half word, which B selects (R180). -/
theorem loadHalf_of_even (mapped : s.mapped (effective p w t.up (s.reg t.rn) t.off).1 = true)
    (even : bit (effective p w t.up (s.reg t.rn) t.off).1 0 = false) :
    loadHalf t word s = .next (s.afterLdrh t.rn t.rd (effective p w t.up (s.reg t.rn) t.off)) := by
  have addr := Transfer.addr_eq_effective indexing (s := s)
  rw [← addr] at mapped even
  refine loadHalf_next.mpr ⟨Transfer.clash_eq_none_of_apart indexing apart word, calm, mapped, below, ?_⟩
  rw [even, if_neg Bool.false_ne_true, Transfer.writeBack_eq_effective indexing, addr, State.afterLdrh]

/-- `STRH` at an even address, with every check passed: `Rd[15:0]` goes to the half word that B selects, and the base
written back is that of the state before the store (R181). -/
theorem storeHalf_of_even (storable : s.storable (effective p w t.up (s.reg t.rn) t.off).1)
    (even : bit (effective p w t.up (s.reg t.rn) t.off).1 0 = false) :
    storeHalf t word s = .next (s.afterStrh t.rn t.rd (effective p w t.up (s.reg t.rn) t.off)) := by
  have addr := Transfer.addr_eq_effective indexing (s := s)
  have low : (s.reg t.rd).setWidth 16 = field (s.reg t.rd) 0 16 := BitVec.setWidth_eq_extractLsb' (by decide)
  rw [← addr] at storable even
  refine storeHalf_next.mpr ⟨Transfer.clash_eq_none_of_apart indexing apart word, calm, storable, below, ?_⟩
  rw [even, if_neg Bool.false_ne_true, Transfer.writeBack_eq_effective indexing, addr, State.setHalf_reg, low,
    State.afterStrh]

end

/-- Settles O49: `loadHalf_of_even` on the operands of the immediate and of the register form. -/
theorem ldrhEvenResult : Obligations.LdrhEvenResult := by
  refine ⟨fun c p u w rn rd h l s ready legal apart calm => ?_, fun c p u w rn rd rm s ready legal apart calm => ?_⟩
  all_goals
    obtain ⟨x, indexing⟩ := Index.ofPW_of_legal legal
    rw [exec_of_ready ready]
  · rw [← splitOffset_eq_append]
    intro ea mapped even
    exact (halfIndexed_of_ofPW indexing).trans
      (loadHalf_of_even (t := halfImmTransfer x u rn rd h l) indexing (fun wb => ⟨apart wb, nofun⟩) calm
        ready.below_top mapped even)
  · intro ea mapped even
    exact (halfIndexed_of_ofPW indexing).trans
      (loadHalf_of_even (t := halfRegTransfer s x u rn rd rm) indexing (fun wb => apart_of_registers (apart wb)) calm
        ready.below_top mapped even)

/-- Settles O51: `storeHalf_of_even` on the operands of the immediate and of the register form. -/
theorem strhEvenResult : Obligations.StrhEvenResult := by
  refine ⟨fun c p u w rn rd h l s ready legal apart calm => ?_, fun c p u w rn rd rm s ready legal apart calm => ?_⟩
  all_goals
    obtain ⟨x, indexing⟩ := Index.ofPW_of_legal legal
    rw [exec_of_ready ready]
  · rw [← splitOffset_eq_append]
    intro ea storable even
    exact (halfIndexed_of_ofPW indexing).trans
      (storeHalf_of_even (t := halfImmTransfer x u rn rd h l) indexing (fun wb => ⟨apart wb, nofun⟩) calm
        ready.below_top storable even)
  · intro ea storable even
    exact (halfIndexed_of_ofPW indexing).trans
      (storeHalf_of_even (t := halfRegTransfer s x u rn rd rm) indexing (fun wb => apart_of_registers (apart wb)) calm
        ready.below_top storable even)

end Sys2Proof.Machine
end

section
/-! The byte accesses `LDRB`, `STRB` and `SWPB` with every check passed (spec/43_byte_access.md): one rule for each, and
the four forms of format LS as operands that the table of R99 covers and the check of R101 allows. -/

namespace Sys2Proof.Machine

/-! ### The operands of the four forms -/

/-- `P` and `W` are the bits the transfer is indexed by (R99), and where they write the base back, no operand register
clashes with it (R101). -/
structure Transfer.Allowed (t : Transfer) (p w : Bool) : Prop where
  indexing : Index.ofPW p w = some t.index
  apart : p = w → t.rn ≠ t.rd ∧ t.rm ≠ some t.rn

section
variable {w u : Bool} {rn rd rm : Reg} {off : BitVec 12} {n : BitVec 5} {sh : Shift} {s : State}

theorem immTransfer_allowed (apart : w = true → rn ≠ rd) : (immTransfer (.ofW w) u rn rd off).Allowed true w :=
  ⟨rfl, fun wb => ⟨apart wb.symm, nofun⟩⟩

theorem immTransfer_post_allowed (apart : rn ≠ rd) : (immTransfer .postIndexed u rn rd off).Allowed false false :=
  ⟨rfl, fun _ => ⟨apart, nofun⟩⟩

theorem regTransfer_allowed (apart : w = true → rn ≠ rd ∧ rm ≠ rn) :
    (regTransfer s (.ofW w) u rn rd n sh rm).Allowed true w :=
  ⟨rfl, fun wb => apart_of_registers (apart wb.symm)⟩

theorem regTransfer_post_allowed (apart : rn ≠ rd ∧ rm ≠ rn) :
    (regTransfer s .postIndexed u rn rd n sh rm).Allowed false false :=
  ⟨rfl, fun _ => apart_of_registers apart⟩

end

/-! ### The rules -/

/-- The byte a store takes from a register is bits [7:0] (R201, R202). -/
theorem setWidth_eq_low_byte (v : Word) : v.setWidth 8 = field v 0 8 := BitVec.setWidth_eq_extractLsb' (by decide)

section
variable {t : Transfer} {p w : Bool} (allowed : t.Allowed p w) {s : State} (calm : s.bSettle = 0)
  (below : s.pc ≠ 0xFFFFFFFC#32) {word : Word}
include allowed calm below

/-- `LDRB` with every check passed, at any byte address: the base is written back before `Rd` gets the zero-extended
byte (R64, R200). -/
theorem loadByte_of_mapped (mapped : s.mapped (effective p w t.up (s.reg t.rn) t.off).1 = true) :
    loadByte t word s = .next (s.afterLdrb t.rn t.rd (effective p w t.up (s.reg t.rn) t.off)) := by
  obtain ⟨indexing, apart⟩ := allowed
  have addr := Transfer.addr_eq_effective indexing (s := s)
  rw [← addr] at mapped
  refine loadByte_next.mpr ⟨Transfer.clash_eq_none_of_apart indexing apart word, calm, mapped, below, ?_⟩
  rw [Transfer.writeBack_eq_effective indexing, addr, State.afterLdrb]

/-- `STRB` with every check passed, at any byte address: `Rd[7:0]` is stored, and the base written back is that of the
state before the store (R64, R201). -/
theorem storeByte_of_storable (storable : s.storable (effective p w t.up (s.reg t.rn) t.off).1) :
    storeByte t word s = .next (s.afterStrb t.rn t.rd (effective p w t.up (s.reg t.rn) t.off)) := by
  obtain ⟨indexing, apart⟩ := allowed
  have addr := Transfer.addr_eq_effective indexing (s := s)
  rw [← addr] at storable
  refine storeByte_next.mpr ⟨Transfer.clash_eq_none_of_apart indexing apart word, calm, storable, below, ?_⟩
  rw [Transfer.writeBack_eq_effective indexing, addr, State.setByte_reg, setWidth_eq_low_byte, State.afterStrb]

end

/-! ### The statements -/

/-- Settles O47: `loadByte_of_mapped` on the allowed operands of each form. -/
theorem ldrbResult : Obligations.LdrbResult := by
  refine ⟨fun c u w rn rd off s ready apart calm => ?_, fun c u rn rd off s ready apart calm => ?_,
    fun c u w rn rd n sh rm s ready apart calm => ?_, fun c u rn rd n sh rm s ready apart calm => ?_⟩
  all_goals
    intro ea mapped
    refine (exec_of_ready ready).trans ?_
  · exact loadByte_of_mapped (immTransfer_allowed apart) calm ready.below_top mapped
  · exact loadByte_of_mapped (immTransfer_post_allowed apart) calm ready.below_top mapped
  · exact loadByte_of_mapped (regTransfer_allowed apart) calm ready.below_top mapped
  · exact loadByte_of_mapped (regTransfer_post_allowed apart) calm ready.below_top mapped

/-- Settles O48: `storeByte_of_storable` on the allowed operands of each form. -/
theorem strbResult : Obligations.StrbResult := by
  refine ⟨fun c u w rn rd off s ready apart calm => ?_, fun c u rn rd off s ready apart calm => ?_,
    fun c u w rn rd n sh rm s ready apart calm => ?_, fun c u rn rd n sh rm s ready apart calm => ?_⟩
  all_goals
    intro ea storable
    refine (exec_of_ready ready).trans ?_
  · exact storeByte_of_storable (immTransfer_allowed apart) calm ready.below_top storable
  · exact storeByte_of_storable (immTransfer_post_allowed apart) calm ready.below_top storable
  · exact storeByte_of_storable (regTransfer_allowed apart) calm ready.below_top storable
  · exact storeByte_of_storable (regTransfer_post_allowed apart) calm ready.below_top storable

/-- Settles O54: the checks of `swapByte` are the premises, and what it stores is `Rm[7:0]`; none of the checks compares
`Rd` with `Rm` (R105, R202). -/
theorem swpbResult : Obligations.SwpbResult := by
  intro c rn rd rm s ready base_rd base_rm calm storable
  rw [← setWidth_eq_low_byte]
  refine (exec_of_ready ready).trans ?_
  exact swapByte_next.mpr ⟨⟨base_rd, base_rm⟩, calm, storable, ready.below_top, rfl⟩

end Sys2Proof.Machine
end
